-- ==== Sys2Proof/Word.lean ====
section
/-! DEFINITION. The words of the block: 00_scope.md R5, R6, 30_encoding.md R38, R41. Bit 0 is the least
significant bit of every one of them (R6). -/

namespace Sys2Proof

/-- A BitWord: "a single value of exactly 64 bits" (R6). Also the type of the field `b`. -/
abbrev Word := BitVec 64

/-- An 8-bit field: `v`, `op`, one character of the rendering, one byte of a port carried over bytes. -/
abbrev Byte := BitVec 8

/-- The command word of 144 bits (R37, R38). -/
abbrev CommandWord := BitVec 144

/-- The rendering output `txt`: 64 characters of 8 bits (R5 `TXTW`, R41). -/
abbrev Txt := BitVec 512

/-- The response carried as one word of 578 bits (R41). -/
abbrev ResponseWord := BitVec 578

end Sys2Proof
end

