-- ==== Sys2Proof/Config.lean ====
section
/-! DEFINITION. The fixed parameters of the block (00_scope.md R5). None can be configured at run time (R16).
`LATENCY` is open and unobservable (R110), so it has no constant here; the index policy is fail-fast and is no
parameter (R92, 93_implementation_defined.md U11). No value of the spec is left free: log 3. -/

namespace Sys2Proof.Config

/-- `CH0`, the code of the character '0' (R5, R89). The spec takes it from general knowledge (G1). -/
def ch0 : Byte := 0x30#8

/-- `CH1`, the code of the character '1' (R5, R89). The spec takes it from general knowledge (G1). -/
def ch1 : Byte := 0x31#8

/-- How many bytes a command word takes over a byte channel: 144 bits (R5 `CMDW`, R28, R39). -/
def commandBytes : Nat := 18

/-- How many bytes a response word takes over a byte channel: 578 bits fill 72 bytes and two bits of a 73rd (R28, R41).
DESIGN CHOICE: that it takes no more; log 15. -/
def responseBytes : Nat := 73

end Sys2Proof.Config
end

