-- ==== Sys2Proof/Syntax.lean ====
section
/-! DEFINITION. The commands of the block, one constructor per row of spec/opcode_table.json (30_encoding.md R44).
A constructor has exactly the operand fields its command uses (R44 column "operands used"); a field a command ignores
(R46) is not part of the instruction. -/

namespace Sys2Proof

/-- The 14 commands, in opcode order (R44). Every value of every operand is legal as an encoding (R52): the types
carry all the bounds. -/
inductive Instr where
  /-- SETALL (R57) -/
  | setall
  /-- RSTALL (R58) -/
  | rstall
  /-- RAW a (R59) -/
  | raw (a : Word)
  /-- SETON a, b: `b` is the bit index (R61) -/
  | seton (a b : Word)
  /-- SETOFF a, b: `b` is the bit index (R62) -/
  | setoff (a b : Word)
  /-- SET a, b, v: `b` is the bit index, `v` the value (R63) -/
  | set (a b : Word) (v : Byte)
  /-- GET a, b: `b` is the bit index (R64) -/
  | get (a b : Word)
  /-- FLIP a, b: `b` is the bit index (R65) -/
  | flip (a b : Word)
  /-- CNTON a (R68) -/
  | cnton (a : Word)
  /-- CNTOFF a (R72) -/
  | cntoff (a : Word)
  /-- MIRROR a (R75) -/
  | mirror (a : Word)
  /-- ROR a, b: `b` is the amount (R80) -/
  | ror (a b : Word)
  /-- ROL a, b: `b` is the amount (R83) -/
  | rol (a b : Word)
  /-- RENDER a (R87) -/
  | render (a : Word)
  deriving DecidableEq, Repr

end Sys2Proof
end

