-- ==== Sys2Proof/Syntax/Script.lean ====
section
/-! DEFINITION. The spec's other notations: mnemonics (30_encoding.md R54), the operands of an assembler line (R53)
and of a script line (R55), and the lines a host sends. -/

namespace Sys2Proof

/-- The 14 mnemonics (R54). There are no pseudo-instructions. -/
inductive Mnemonic where
  | setall | rstall | raw | seton | setoff | set | get | flip | cnton | cntoff | mirror | ror | rol | render
  deriving DecidableEq, Repr

/-- The three operand fields of a command word (R38). -/
inductive Field where
  | a | b | v
  deriving DecidableEq, Repr

/-- An operand of a script line: "a literal or `%m`" (R55). A literal is an unsigned integer (R53). -/
inductive Operand where
  /-- an integer literal -/
  | lit (n : Nat)
  /-- `%m`: the `y` field of the response to line `m` -/
  | ref (m : Nat)
  deriving DecidableEq, Repr

/-- A line of a script: mnemonic and operands in the order `a`, `b`, `v` (R53, R55). Its number is its place in its
script. -/
structure ScriptLine where
  mnemonic : Mnemonic
  operands : List Operand
  deriving DecidableEq, Repr

/-- One entry of the list of what is still to be sent to the block: a literal command word, replayed as it is
(95_test_vectors.md P6), or a line of a script, whose command word the host builds from that script's earlier results
(R55). Several scripts, of one host or of several, may stand in one list, so each has a number: log 6, 13. -/
inductive Line where
  /-- a literal command word; it belongs to no script -/
  | word (w : CommandWord)
  /-- the next line of script number `k` -/
  | script (k : Nat) (l : ScriptLine)
  deriving DecidableEq, Repr

/-- The script a line belongs to, none for a literal word. -/
def Line.script? : Line → Option Nat
  | .word _ => none
  | .script k _ => some k

/-- Why the assembler rejects a line (R53). -/
inductive AsmError where
  /-- the first word of the line is none of the 14 mnemonics -/
  | unknownMnemonic
  /-- the line does not give exactly the operands the command uses -/
  | operandCount
  /-- an operand does not fit its field: 64 bits for `a` and `b`, 8 bits for `v` -/
  | operandTooLarge
  /-- an operand is neither a literal nor `%m` -/
  | badOperand
  /-- a script line does not begin with its own number, `%n =` -/
  | badNumber
  /-- a `%m` where only literals may stand, or one that names no earlier line -/
  | badReference
  deriving DecidableEq, Repr

end Sys2Proof
end

