-- ==== Sys2Proof/Decode.lean ====
section
/-! DEFINITION. The command word: its fields, the opcode map, the decoder (total, rejecting by name) and, after it, the
encoder. 30_encoding.md R37 to R46, R51; byte order 20_memory.md R28. -/

namespace Sys2Proof

/-! ### Bytes of a port word (R28) -/

/-- The number whose little-endian bytes are `bs`: byte `n` is bits `8n+7:8n` (R28). -/
def natOfBytes : List Byte → Nat
  | [] => 0
  | b :: bs => b.toNat + 256 * natOfBytes bs

/-- The first `k` little-endian bytes of a number (R28). -/
def bytesOfNat : Nat → Nat → List Byte
  | 0, _ => []
  | k + 1, n => BitVec.ofNat 8 n :: bytesOfNat k (n / 256)

/-- A command word as 18 bytes, byte 0 first (R28, R39). -/
def bytesOfCommand (w : CommandWord) : List Byte := bytesOfNat Config.commandBytes w.toNat

/-- The command word that 18 bytes carry (R28). -/
def commandOfBytes (bs : List Byte) : CommandWord := BitVec.ofNat 144 (natOfBytes bs)

/-- A response word as 73 bytes, byte 0 first: `y` in bytes 0 to 7, `txt` in bytes 8 to 71, `err` in bits 1:0 of byte 72
(R28, R41). DESIGN CHOICE: the six bits of byte 72 above bit 577 of the word are 0; log 15. -/
def bytesOfResponse (z : ResponseWord) : List Byte := bytesOfNat Config.responseBytes z.toNat

/-- The response word that 73 bytes carry (R28). DESIGN CHOICE: what stands above bit 577 is not looked at; log 15. -/
def responseOfBytes (bs : List Byte) : ResponseWord := BitVec.ofNat 578 (natOfBytes bs)

/-! ### Fields of the command word (R38) -/

/-- `CMD.a` = bits 63:0 (R38). -/
def aField (w : CommandWord) : Word := w.extractLsb' 0 64

/-- `CMD.b` = bits 127:64 (R38). -/
def bField (w : CommandWord) : Word := w.extractLsb' 64 64

/-- `CMD.v` = bits 135:128 (R38). -/
def vField (w : CommandWord) : Byte := w.extractLsb' 128 8

/-- `CMD.op` = bits 143:136 (R38). -/
def opField (w : CommandWord) : Byte := w.extractLsb' 136 8

/-- The command word with these fields, spelled `op v b a` most significant first (R38, R39). -/
def assembleFields (op v : Byte) (b a : Word) : CommandWord := op ++ v ++ b ++ a

/-! ### The opcode map (R44) -/

/-- The opcode of each mnemonic (R44). -/
def Mnemonic.opcode : Mnemonic → Byte
  | .setall => 0x00#8
  | .rstall => 0x01#8
  | .raw => 0x02#8
  | .seton => 0x03#8
  | .setoff => 0x04#8
  | .set => 0x05#8
  | .get => 0x06#8
  | .flip => 0x07#8
  | .cnton => 0x08#8
  | .cntoff => 0x09#8
  | .mirror => 0x0A#8
  | .ror => 0x0B#8
  | .rol => 0x0C#8
  | .render => 0x0D#8

/-- The dispatch of R45 on the opcode: the command an opcode selects, none where the opcode is reserved (R51). -/
def Mnemonic.ofOpcode (op : Byte) : Option Mnemonic :=
  match op.toNat with
  | 0x00 => some .setall
  | 0x01 => some .rstall
  | 0x02 => some .raw
  | 0x03 => some .seton
  | 0x04 => some .setoff
  | 0x05 => some .set
  | 0x06 => some .get
  | 0x07 => some .flip
  | 0x08 => some .cnton
  | 0x09 => some .cntoff
  | 0x0A => some .mirror
  | 0x0B => some .ror
  | 0x0C => some .rol
  | 0x0D => some .render
  | _ => none

/-- The operand fields a command uses, in the order an assembler line gives them (R44 column "operands used", R53). -/
def Mnemonic.operands : Mnemonic → List Field
  | .setall => []
  | .rstall => []
  | .raw => [.a]
  | .seton => [.a, .b]
  | .setoff => [.a, .b]
  | .set => [.a, .b, .v]
  | .get => [.a, .b]
  | .flip => [.a, .b]
  | .cnton => [.a]
  | .cntoff => [.a]
  | .mirror => [.a]
  | .ror => [.a, .b]
  | .rol => [.a, .b]
  | .render => [.a]

/-- The instruction a mnemonic names, its operands taken from the three fields; the fields it does not use are dropped
(R46). -/
def Mnemonic.instr (m : Mnemonic) (a b : Word) (v : Byte) : Instr :=
  match m with
  | .setall => .setall
  | .rstall => .rstall
  | .raw => .raw a
  | .seton => .seton a b
  | .setoff => .setoff a b
  | .set => .set a b v
  | .get => .get a b
  | .flip => .flip a b
  | .cnton => .cnton a
  | .cntoff => .cntoff a
  | .mirror => .mirror a
  | .ror => .ror a b
  | .rol => .rol a b
  | .render => .render a

/-! ### The decoder -/

/-- Why a decoder refuses. -/
inductive DecodeError where
  /-- `op` is one of 0x0E to 0xFF (R51) -/
  | reservedOpcode (op : Byte)
  /-- fewer than 18 bytes: no command is shorter (R37) -/
  | tooShort
  deriving DecidableEq, Repr

/-- Decoding looks at `op` only (R43); a reserved opcode is no command (R51). -/
def decodeWord (w : CommandWord) : Except DecodeError Instr :=
  match Mnemonic.ofOpcode (opField w) with
  | some m => .ok (m.instr (aField w) (bField w) (vField w))
  | none => .error (.reservedOpcode (opField w))

/-- The decoder on any bytes: the first 18 are one command word (R28, R37); it answers the instruction and the bytes
left over. DEDUCED: that a shorter list is no command; log 11. -/
def decode (bs : List Byte) : Except DecodeError (Instr × List Byte) :=
  if bs.length < Config.commandBytes then .error .tooShort
  else
    match decodeWord (commandOfBytes (bs.take Config.commandBytes)) with
    | .ok i => .ok (i, bs.drop Config.commandBytes)
    | .error e => .error e

/-- The instruction the decoder reads from the bits `w` of a row of spec/opcode_table.json (bit 0 the least significant
bit of the command word, as R38 numbers them); bits from `nbits` up are 0. -/
def decodeTableWord (nbits w : Nat) : Option Instr :=
  match decode (bytesOfCommand (BitVec.ofNat 144 (w % 2 ^ nbits))) with
  | .ok (i, _) => some i
  | .error _ => none

/-! ### The encoder (R38, R44, R46: 0 in every unused field) -/

/-- The mnemonic of an instruction (R54). -/
def Instr.mnemonic : Instr → Mnemonic
  | .setall => .setall
  | .rstall => .rstall
  | .raw _ => .raw
  | .seton _ _ => .seton
  | .setoff _ _ => .setoff
  | .set _ _ _ => .set
  | .get _ _ => .get
  | .flip _ _ => .flip
  | .cnton _ => .cnton
  | .cntoff _ => .cntoff
  | .mirror _ => .mirror
  | .ror _ _ => .ror
  | .rol _ _ => .rol
  | .render _ => .render

/-- The field `a` of the canonical encoding: 0 where the command does not use it (R46). -/
def Instr.aOperand : Instr → Word
  | .setall | .rstall => 0
  | .raw a | .cnton a | .cntoff a | .mirror a | .render a => a
  | .seton a _ | .setoff a _ | .get a _ | .flip a _ | .ror a _ | .rol a _ => a
  | .set a _ _ => a

/-- The field `b` of the canonical encoding: 0 where the command does not use it (R46). -/
def Instr.bOperand : Instr → Word
  | .setall | .rstall => 0
  | .raw _ | .cnton _ | .cntoff _ | .mirror _ | .render _ => 0
  | .seton _ b | .setoff _ b | .get _ b | .flip _ b | .ror _ b | .rol _ b => b
  | .set _ b _ => b

/-- The field `v` of the canonical encoding: 0 but for SET (R46). -/
def Instr.vOperand : Instr → Byte
  | .set _ _ v => v
  | .setall | .rstall => 0
  | .raw _ | .cnton _ | .cntoff _ | .mirror _ | .render _ => 0
  | .seton _ _ | .setoff _ _ | .get _ _ | .flip _ _ | .ror _ _ | .rol _ _ => 0

/-- The canonical command word of an instruction (R46). -/
def encode (i : Instr) : CommandWord :=
  assembleFields i.mnemonic.opcode i.vOperand i.bOperand i.aOperand

/-- The canonical command word as the 18 bytes that carry it (R28). -/
def encodeBytes (i : Instr) : List Byte := bytesOfCommand (encode i)

/-! ### The opcode table, as a mask and match decoder reads it (R43) -/

/-- One row: the command is selected when the word under the mask equals `matchValue` (R43). -/
structure OpcodeRow where
  mnemonic : Mnemonic
  matchValue : CommandWord
  deriving DecidableEq, Repr

/-- "mask the command word with `0xFF` shifted left by 136 bits" (R43). -/
def opcodeMask : CommandWord := 0xff0000000000000000000000000000000000#144

/-- The rows of spec/opcode_table.json: the column "match", in its order. -/
def opcodeTable : List OpcodeRow :=
  [ ⟨.setall, 0x000000000000000000000000000000000000#144⟩,
    ⟨.rstall, 0x010000000000000000000000000000000000#144⟩,
    ⟨.raw, 0x020000000000000000000000000000000000#144⟩,
    ⟨.seton, 0x030000000000000000000000000000000000#144⟩,
    ⟨.setoff, 0x040000000000000000000000000000000000#144⟩,
    ⟨.set, 0x050000000000000000000000000000000000#144⟩,
    ⟨.get, 0x060000000000000000000000000000000000#144⟩ ] ++
  [ ⟨.flip, 0x070000000000000000000000000000000000#144⟩,
    ⟨.cnton, 0x080000000000000000000000000000000000#144⟩,
    ⟨.cntoff, 0x090000000000000000000000000000000000#144⟩,
    ⟨.mirror, 0x0a0000000000000000000000000000000000#144⟩,
    ⟨.ror, 0x0b0000000000000000000000000000000000#144⟩,
    ⟨.rol, 0x0c0000000000000000000000000000000000#144⟩,
    ⟨.render, 0x0d0000000000000000000000000000000000#144⟩ ]

/-- A word matches a row (R43). -/
def OpcodeRow.hits (r : OpcodeRow) (w : CommandWord) : Bool := (w &&& opcodeMask) == r.matchValue

/-! ### Spelling a command word (R39) -/

/-- The character of one hexadecimal digit. The spec's own words are spelled in small letters (95_test_vectors.md). -/
def hexChar (d : Nat) : Char :=
  if d < 10 then Char.ofNat (48 + d) else Char.ofNat (87 + d)

/-- `k` hexadecimal digits of a number, most significant first (R6, R39). -/
def hexDigits : Nat → Nat → List Char
  | 0, _ => []
  | k + 1, n => hexChar (n / 16 ^ k % 16) :: hexDigits k n

/-- A command word "written as one hexadecimal number of 36 digits, most significant digit first" (R39). -/
def spellCommand (w : CommandWord) : List Char := '0' :: 'x' :: hexDigits 36 w.toNat

end Sys2Proof
end

