-- ==== Sys2Proof/Machine/State.lean ====
section
/-! DEFINITION. The state. The block itself has none: no register, program counter, flag, control register or memory
(10_state.md R13 to R17, R20, 20_memory.md R25). State holds the two ports (R18) and what R22 puts on the host's side:
the commands it will send and its record of the responses. -/

namespace Sys2Proof.Machine

/-- The two errors a response can carry (30_encoding.md R42, 60_exceptions.md R91); code 3 is never produced, so "a
model's error type has two constructors only" (93_implementation_defined.md U5). -/
inductive Err where
  /-- `err` = 1: a bit index of 64 or more (R92) -/
  | indexRange
  /-- `err` = 2: a reserved opcode (R93) -/
  | illegalOp
  deriving DecidableEq, Repr

/-- The response to one command (R40, R41). A response with an error carries no `y` and no `txt` at all, "an outcome that
is distinct from every value" (R94): log 3. -/
inductive Response where
  /-- `err` = 0: the result `y` and the rendering `txt` -/
  | ok (y : Word) (txt : Txt)
  /-- `err` is not 0: no result -/
  | error (e : Err)
  deriving DecidableEq, Repr

/-- One command and its response, as the host has them: "one command gives exactly one response" (R19). The pair names
the command an error belongs to (R94, R97). The host also knows which script it sent the command for (R22); the block
sees no such number (R24). -/
structure Exchange where
  cmd : CommandWord
  rsp : Response
  /-- the script whose line the command was, none for a literal word -/
  script : Option Nat
  deriving DecidableEq, Repr

/-- The two ports and the host's side (R18, R22). -/
structure State where
  /-- the command port CMD: the command word presented, none while no command has been (R18, R19) -/
  cmd : Option CommandWord
  /-- the response port RSP: the response to `cmd`, none while there is none to read (R18, R21) -/
  rsp : Option Response
  /-- the lines not yet sent, in the order in which they come to the port (R22, R55, R112, R114) -/
  pending : List Line
  /-- the record of the exchanges so far, oldest first: "a script's table of earlier results, a record that a response
  carried an error" (R22). The entries of one script are its own record: entry number `n` among them, counted from 1, is
  line `n` of R55 -/
  log : List Exchange
  deriving DecidableEq, Repr

/-- What a host presents: a command word, the script it is a line of, and the lines that are then left. -/
structure Sent where
  word : CommandWord
  script : Option Nat
  rest : List Line
  deriving DecidableEq, Repr

/-- What stops the machine. No command stops it: an error is a response (R98, R111). -/
inductive Fault where
  /-- Raised by the host's side (`fetch`) when no line is left that can be sent and the first one left is a line of a script
  `k` in which the response to `line` carried an error: "the script stops there with that error" (R55). Safe: the host
  sends nothing, where the block would answer (R98). -/
  | scriptStopped (k line : Nat) (e : Err)
  deriving DecidableEq, Repr

/-- What has no step. -/
inductive Refusal where
  /-- Raised by `exec`'s arm of an instruction that has no meaning yet. Safe. No arm is left so. -/
  | notModelled (mnemonic : String)
  /-- Raised by the host's side (`fetch`) when no line is left, and by `blockOnPort` when CMD holds no command: the run has
  ended (R112), the model has responses only for commands (93_implementation_defined.md U6). Safe. -/
  | noCommandPresented
  /-- Raised by the host's side (`fetch`) when no line is left that can be sent and the first one left is a script line the
  assembler rejects (R53) or one whose `%m` names no earlier line of its script (R55). Safe: no command exists. -/
  | lineRejected (e : AsmError)
  deriving DecidableEq, Repr

/-- Right after reset: nothing is presented, nothing is answered, nothing is loaded, nothing is recorded. The spec has
nothing to reset (R21, R105); the four values are the model's, log 5. -/
def State.reset : State := { cmd := none, rsp := none, pending := [], log := [] }

end Sys2Proof.Machine
end

