-- ==== Sys2Proof/Machine/Ops.lean ====
section
/-! DEFINITION. The named operations the meanings share: the shifts (00_scope.md R8), driving a response (00_scope.md R9,
30_encoding.md R45), and raising an error, the block's whole exception mechanism (60_exceptions.md R91 to R98). -/

namespace Sys2Proof.Machine

/-! ### A vector from its bits (R6) -/

/-- The number whose bit `i` is `f i` for i below `n`, and 0 above (R6). -/
def natOfBits (f : Nat → Bool) : Nat → Nat
  | 0 => 0
  | n + 1 => natOfBits f n + (if f n then 2 ^ n else 0)

/-- The `n`-bit vector whose bit `i` is `f i` (R6). -/
def ofBits (n : Nat) (f : Nat → Bool) : BitVec n := BitVec.ofNat n (natOfBits f n)

/-! ### Shifts: the amount's type carries the bound, so that a shift by 64 cannot be written (R8, U2) -/

/-- `x << n` for 0 ≤ n ≤ 63 (R8). -/
def shl (x : Word) (n : Fin 64) : Word := x <<< n.val

/-- `x >> n` for 0 ≤ n ≤ 63: logical (R8). -/
def shr (x : Word) (n : Fin 64) : Word := x >>> n.val

/-! ### The response -/

/-- `RSP` takes this response; nothing else changes (R9, R31). -/
def State.drive (s : State) (r : Response) : State := { s with rsp := some r }

/-- `RSP.y <- y; RSP.txt <- 0; RSP.err <- 0`: how every command but RENDER completes (R45). -/
def respond (y : Word) (s : State) : Host.Outcome State Fault Refusal := .next (s.drive (.ok y 0))

/-- `RSP.txt <- t; RSP.y <- 0; RSP.err <- 0`: how RENDER completes (R87). -/
def respondText (t : Txt) (s : State) : Host.Outcome State Fault Refusal := .next (s.drive (.ok 0 t))

/-- TAKING AN EXCEPTION. `raise` ends the command with this error and no result (R9, R92, R93, R94). There is no trap
entry: nothing is saved, no mode changes, control goes nowhere (R97), so the machine goes on with a NEXT state whose RSP
holds the error (R98; log 2). There is no return from it and nothing to acknowledge (R98), so no operation stands
beside this one. -/
def raise (e : Err) (s : State) : Host.Outcome State Fault Refusal := .next (s.drive (.error e))

end Sys2Proof.Machine
end

