-- ==== Sys2Proof/Machine/Operands.lean ====
section
/-! DEFINITION. The operand forms: index, amount, value, scalar (30_encoding.md R47 to R50). -/

namespace Sys2Proof.Machine

/-- The bit index `at`: all 64 bits of `CMD.b`, in range when below 64, never reduced (R47, R66). -/
def bitIndex (b : Word) : Option (Fin 64) := if h : b.toNat < 64 then some ⟨b.toNat, h⟩ else none

/-- The amount used by a rotation: `CMD.b mod 64` (R48). -/
def amount (b : Word) : Fin 64 := ⟨b.toNat % 64, Nat.mod_lt _ (by decide)⟩

/-- `nz = (CMD.v != 0)`, over all eight bits (R49). -/
def valueNonzero (v : Byte) : Bool := v != 0

/-- `zext_64` of a scalar result (R7, R50). -/
def zext64 {n : Nat} (x : BitVec n) : Word := x.setWidth 64

/-- The one-bit mask `0x0000000000000001 << i` (R61). -/
def oneHot (i : Fin 64) : Word := shl 0x0000000000000001#64 i

/-- The index check, made first: a bad index raises IndexRange and computes nothing; a good one goes on (R66, R96). -/
def withIndex (b : Word) (k : Fin 64 → State → Host.Outcome State Fault Refusal) (s : State) :
    Host.Outcome State Fault Refusal :=
  match bitIndex b with
  | some i => k i s
  | none => raise .indexRange s

end Sys2Proof.Machine
end

