-- ==== Sys2Proof/Machine/Flags.lean ====
section
/-! DEFINITION. There are no flags (10_state.md R15): what a command reports stands in its own response. Here are the
response's fields: `err` and its codes (30_encoding.md R42), `y`, `txt`, the 578-bit layout (R41), and that word carried over
bytes (20_memory.md R28). -/

namespace Sys2Proof.Machine

/-- The code of an error in `RSP.err` (R42). -/
def Err.code : Err → BitVec 2
  | .indexRange => 1#2
  | .illegalOp => 2#2

/-- `RSP.err` (R42). -/
def Response.err : Response → BitVec 2
  | .ok _ _ => 0#2
  | .error e => e.code

/-- `RSP.y`; none where the response carries an error (R94). -/
def Response.y? : Response → Option Word
  | .ok y _ => some y
  | .error _ => none

/-- `RSP.txt`; none where the response carries an error (R94). -/
def Response.txt? : Response → Option Txt
  | .ok _ t => some t
  | .error _ => none

/-- The response completed: `err` is 0. -/
def Response.isOk (r : Response) : Bool := r.err == 0#2

/-- The response as one 578-bit word, where `err` is 0 (R41). -/
def Response.word? : Response → Option ResponseWord
  | .ok y t => some ((0#2 : BitVec 2) ++ t ++ y)
  | .error _ => none

/-- A 578-bit word on RSP carries this response: `err` in bits 577:576, and, only when `err` is 0, `y` in bits 63:0 and
`txt` in bits 575:64. With an error the other 576 bits may be anything (R41, R94; log 3). -/
def Response.Carries (r : Response) (w : ResponseWord) : Prop :=
  w.extractLsb' 576 2 = r.err
    ∧ (∀ y, r.y? = some y → w.extractLsb' 0 64 = y) ∧ (∀ t, r.txt? = some t → w.extractLsb' 64 512 = t)

/-- The response as the 73 bytes of its word, where `err` is 0 (R28). -/
def Response.bytes? (r : Response) : Option (List Byte) := r.word?.map bytesOfResponse

/-- 73 bytes read from RSP carry this response when the word they hold does (R28). With an error, all but bits 1:0 of
byte 72 may be anything (R94; log 3); those bits' six neighbours always may (log 15). -/
def Response.CarriesBytes (r : Response) (bs : List Byte) : Prop :=
  bs.length = Config.responseBytes ∧ r.Carries (responseOfBytes bs)

/-- Character `j` of a rendering, `txt[8j+7:8j]`; it is also byte `j` of `txt` carried over bytes (R28, R41). -/
def txtChar (t : Txt) (j : Nat) : Byte := t.extractLsb' (8 * j) 8

end Sys2Proof.Machine
end

