-- ==== Sys2Proof/Machine/BitOps.lean ====
section
/-! DEFINITION. SETON, SETOFF, SET, GET, FLIP (41_bit_ops.md). Each makes the index check of R66 first. -/

namespace Sys2Proof.Machine

/-- Bit `i` forced to 1 (R61). -/
def bitOn (a : Word) (i : Fin 64) : Word := a ||| oneHot i

/-- Bit `i` forced to 0 (R62). -/
def bitOff (a : Word) (i : Fin 64) : Word := a &&& ~~~oneHot i

/-- SETON (R61). -/
def execSeton (a b : Word) (s : State) : Host.Outcome State Fault Refusal :=
  withIndex b (fun i => respond (bitOn a i)) s

/-- SETOFF (R62). -/
def execSetoff (a b : Word) (s : State) : Host.Outcome State Fault Refusal :=
  withIndex b (fun i => respond (bitOff a i)) s

/-- SET: "dispatches to SetOn if `value` is nonzero, else SetOff"; the index is checked whatever `v` is (R63). -/
def execSet (a b : Word) (v : Byte) (s : State) : Host.Outcome State Fault Refusal :=
  withIndex b (fun i => respond (if valueNonzero v then bitOn a i else bitOff a i)) s

/-- GET: the bit in `y[0]`, the rest of `y` zero (R64). -/
def execGet (a b : Word) (s : State) : Host.Outcome State Fault Refusal :=
  withIndex b (fun i => respond (shr a i &&& 0x0000000000000001#64)) s

/-- FLIP: "complements exactly bit `at`" (R65). -/
def execFlip (a b : Word) (s : State) : Host.Outcome State Fault Refusal :=
  withIndex b (fun i => respond (a ^^^ oneHot i)) s

end Sys2Proof.Machine
end

