-- ==== Sys2Proof/Machine/Constructors.lean ====
section
/-! DEFINITION. SETALL, RSTALL, RAW (40_constructors.md). -/

namespace Sys2Proof.Machine

/-- SETALL: "a BitWord with every bit 1" (R57). -/
def execSetall (s : State) : Host.Outcome State Fault Refusal := respond 0xFFFFFFFFFFFFFFFF#64 s

/-- RSTALL: "a BitWord with every bit 0" (R58). -/
def execRstall (s : State) : Host.Outcome State Fault Refusal := respond 0x0000000000000000#64 s

/-- RAW: the raw pattern, unchanged (R59). -/
def execRaw (a : Word) (s : State) : Host.Outcome State Fault Refusal := respond a s

end Sys2Proof.Machine
end

