-- ==== Sys2Proof/Machine/Mirror.lean ====
section
/-! DEFINITION. MIRROR and the six-stage butterfly (43_mirror.md). -/

namespace Sys2Proof.Machine

/-- One stage: swap the blocks of width `w`, `((x & R_w) << w) | ((x & L_w) >> w)` (R76). -/
def swapBlocks (w : Fin 64) (rightMask leftMask x : Word) : Word :=
  shl (x &&& rightMask) w ||| shr (x &&& leftMask) w

/-- A stage of the butterfly: block width, right-mask, left-mask (R76). -/
structure SwapStage where
  width : Fin 64
  rightMask : Word
  leftMask : Word
  deriving DecidableEq, Repr

/-- The table of mask pairs, in the order of the stages (R76). -/
def swapStages : List SwapStage :=
  [⟨32, 0x00000000FFFFFFFF#64, 0xFFFFFFFF00000000#64⟩, ⟨16, 0x0000FFFF0000FFFF#64, 0xFFFF0000FFFF0000#64⟩,
    ⟨8, 0x00FF00FF00FF00FF#64, 0xFF00FF00FF00FF00#64⟩, ⟨4, 0x0F0F0F0F0F0F0F0F#64, 0xF0F0F0F0F0F0F0F0#64⟩,
    ⟨2, 0x3333333333333333#64, 0xCCCCCCCCCCCCCCCC#64⟩, ⟨1, 0x5555555555555555#64, 0xAAAAAAAAAAAAAAAA#64⟩]

/-- The butterfly: the stages of the table, of width 32, 16, 8, 4, 2, 1 in this order (R76). -/
def butterfly (x : Word) : Word :=
  swapStages.foldl (fun y st => swapBlocks st.width st.rightMask st.leftMask y) x

/-- MIRROR: `y = butterfly(a)` (R75). -/
def execMirror (a : Word) (s : State) : Host.Outcome State Fault Refusal := respond (butterfly a) s

end Sys2Proof.Machine
end

