-- ==== Sys2Proof/Machine/Popcount.lean ====
section
/-! DEFINITION. CNTON, CNTOFF and the SWAR population-count tree (42_popcount.md). The tree is the form R69 writes out;
its intermediate values cannot be observed (R71). -/

namespace Sys2Proof.Machine

/-- A pairwise stage: `(x & m) + ((x >> k) & m)` (R69). -/
def pairSum (m : Word) (k : Fin 64) (x : Word) : Word := (x &&& m) + (shr x k &&& m)

/-- A horizontal stage: `x + (x >> k)` (R69). -/
def foldSum (k : Fin 64) (x : Word) : Word := x + shr x k

/-- `t1`: 32 lanes of 2 bits (R69). -/
def swarT1 (x : Word) : Word := pairSum 0x5555555555555555#64 1 x

/-- `t2`: 16 lanes of 4 bits (R69). -/
def swarT2 (x : Word) : Word := pairSum 0x3333333333333333#64 2 (swarT1 x)

/-- `t3`: 8 lanes of 8 bits (R69). -/
def swarT3 (x : Word) : Word := pairSum 0x0f0f0f0f0f0f0f0f#64 4 (swarT2 x)

/-- `t4` (R69). -/
def swarT4 (x : Word) : Word := foldSum 8 (swarT3 x)

/-- `t5` (R69). -/
def swarT5 (x : Word) : Word := foldSum 16 (swarT4 x)

/-- `t6` (R69). -/
def swarT6 (x : Word) : Word := foldSum 32 (swarT5 x)

/-- `swar_count`: the tree's 7-bit result, 0 to 64 (R69). -/
def swarCount (x : Word) : BitVec 7 := (swarT6 x &&& 0x7f#64).setWidth 7

/-- CNTON: `y = zext_64(swar_count(a))` (R68). -/
def execCnton (a : Word) (s : State) : Host.Outcome State Fault Refusal := respond (zext64 (swarCount a)) s

/-- CNTOFF: `y = zext_64(64 - n)` (R72). -/
def execCntoff (a : Word) (s : State) : Host.Outcome State Fault Refusal := respond (zext64 (64#7 - swarCount a)) s

end Sys2Proof.Machine
end

