-- ==== Sys2Proof/Machine/Reference.lean ====
section
/-! DEFINITION. The spec's mathematical functions, "used to state results, not an operator of the hardware": popcount,
rev64, rotr64 (00_scope.md R9), the barrel rotator (44_rotate.md R82, informative), the two other forms of the
population-count stages (42_popcount.md R71), and Parse (45_render.md R90). -/

namespace Sys2Proof.Machine

/-- `popcount(x)`: "the number of indices i in 0..63 with `x[i] = 1`" (R9). -/
def popcount (x : Word) : Nat := (List.range 64).countP (fun i => x.getLsbD i)

/-- The number of 1 bits among bits `lo` to `lo + n - 1`: what a lane of the tree holds (R70). -/
def onesIn (x : Word) (lo n : Nat) : Nat := (List.range n).countP (fun i => x.getLsbD (lo + i))

/-- Lane `p` of width `w`: bits `w·p+w-1 : w·p` (R70). -/
def lane (w p : Nat) (x : Word) : BitVec w := x.extractLsb' (w * p) w

/-- `rev64(x)`: `r[i] = x[63-i]` (R9). -/
def rev64 (x : Word) : Word := ofBits 64 (fun i => x.getLsbD (63 - i))

/-- `rotr64(x, s)`: `r[i] = x[(i+s) mod 64]` (R9). -/
def rotr64 (x : Word) (s : Nat) : Word := ofBits 64 (fun i => x.getLsbD ((i + s) % 64))

/-- One stage of the barrel rotator: rotate right by `2^k` when `s[k]` = 1 (R82). -/
def barrelStage (s : Fin 64) (x : Word) (k : Nat) : Word := if s.val.testBit k then rotr64 x (2 ^ k) else x

/-- The barrel rotator: stages 0 to 5 (R82). -/
def barrel (x : Word) (s : Fin 64) : Word := (List.range 6).foldl (barrelStage s) x

/-- The first stage of the other form of the tree: `x - ((x >> 1) & M1)` (R71). -/
def altT1 (x : Word) : Word := x - (shr x 1 &&& 0x5555555555555555#64)

/-- The third stage of the other form of the tree, from the second stage's value: `(t2 + (t2 >> 4)) & M4` (R71). -/
def altT3 (t2 : Word) : Word := (t2 + shr t2 4) &&& 0x0f0f0f0f0f0f0f0f#64

/-- `Parse`, on the host's side: defined only where every character is CH0 or CH1; bit 63-j is bit 0 of character j
(R90, 93_implementation_defined.md U10). -/
def parse (t : Txt) : Option Word :=
  if (List.range 64).all (fun j => txtChar t j == Config.ch0 || txtChar t j == Config.ch1) then
    some (ofBits 64 (fun i => t.getLsbD (8 * (63 - i))))
  else none

end Sys2Proof.Machine
end

