-- ==== Sys2Proof/Machine/Render.lean ====
section
/-! DEFINITION. RENDER (45_render.md). -/

namespace Sys2Proof.Machine

/-- The character that shows a bit (R87, R89). -/
def bitChar (bit : Bool) : Byte := if bit then Config.ch1 else Config.ch0

/-- The rendering: `txt[8j+7:8j]` is the character of `a[63-j]`, for j in 0 to 63 (R87). Bit `k` of `txt` is bit `k mod 8`
of character `k / 8`. -/
def render (a : Word) : Txt := ofBits 512 (fun k => (bitChar (a.getLsbD (63 - k / 8))).getLsbD (k % 8))

/-- RENDER: the rendering in `txt`, 0 in `y` (R87). -/
def execRender (a : Word) (s : State) : Host.Outcome State Fault Refusal := respondText (render a) s

end Sys2Proof.Machine
end

