-- ==== Sys2Proof/Machine/Rotate.lean ====
section
/-! DEFINITION. ROR, ROL (44_rotate.md). -/

namespace Sys2Proof.Machine

/-- RotateRight on a reduced amount: the identity at 0, an explicit branch (R81), else `(a >> s) | (a << (64 - s))`, both
amounts in 1 to 63 (R80). -/
def rotateRight (a : Word) (s : Fin 64) : Word :=
  if h : s.val = 0 then a
  else shr a s ||| shl a ⟨64 - s.val, by omega⟩

/-- RotateLeft: RotateRight by `64 - s`, an integer 1 to 64, which RotateRight reduces modulo 64 (R83, R84). -/
def rotateLeft (a : Word) (s : Fin 64) : Word :=
  rotateRight a ⟨(64 - s.val) % 64, Nat.mod_lt _ (by decide)⟩

/-- ROR (R80): no amount is an error. -/
def execRor (a b : Word) (s : State) : Host.Outcome State Fault Refusal := respond (rotateRight a (amount b)) s

/-- ROL (R83): no amount is an error. -/
def execRol (a b : Word) (s : State) : Host.Outcome State Fault Refusal := respond (rotateLeft a (amount b)) s

end Sys2Proof.Machine
end

