-- ==== Sys2Proof/Machine/Dispatch.lean ====
section
/-! DEFINITION. The dispatch of 30_encoding.md R45: one arm per command. -/

namespace Sys2Proof.Machine

/-- `exec`, from the decoded command on (R45). -/
def exec (i : Instr) (s : State) : Host.Outcome State Fault Refusal :=
  match i with
  | .setall => Sys2Proof.Machine.execSetall s
  | .rstall => Sys2Proof.Machine.execRstall s
  | .raw a => Sys2Proof.Machine.execRaw a s
  | .seton a b => Sys2Proof.Machine.execSeton a b s
  | .setoff a b => Sys2Proof.Machine.execSetoff a b s
  | .set a b v => Sys2Proof.Machine.execSet a b v s
  | .get a b => Sys2Proof.Machine.execGet a b s
  | .flip a b => Sys2Proof.Machine.execFlip a b s
  | .cnton a => Sys2Proof.Machine.execCnton a s
  | .cntoff a => Sys2Proof.Machine.execCntoff a s
  | .mirror a => Sys2Proof.Machine.execMirror a s
  | .ror a b => Sys2Proof.Machine.execRor a b s
  | .rol a b => Sys2Proof.Machine.execRol a b s
  | .render a => Sys2Proof.Machine.execRender a s

end Sys2Proof.Machine
end

