-- ==== Sys2Proof/Machine/Block.lean ====
section
/-! DEFINITION. The block on a whole command word: 30_encoding.md R45 with its decoding (R43) and its "otherwise" arm
(R51). -/

namespace Sys2Proof.Machine

/-- The block's answer to a command word, driven on RSP: decode `op`; a reserved opcode raises IllegalOp and nothing else
is looked at (R45, R51, R93, R96). -/
def blockStep (w : CommandWord) (s : State) : Host.Outcome State Fault Refusal :=
  match decodeWord w with
  | .ok i => exec i s
  | .error _ => raise .illegalOp s

/-- The block at its command port: it answers the command word that CMD holds. With no command presented there is no
response (R19, R21; log 4). -/
def blockOnPort (s : State) : Host.Outcome State Fault Refusal :=
  match s.cmd with
  | some w => blockStep w s
  | none => .refused .noCommandPresented

/-- `exec : Command -> Response` (R22, R45) read off the machine: what RSP holds after the block has answered `w` from
reset. -/
def answer (w : CommandWord) : Option Response :=
  match blockStep w State.reset with
  | .next t => t.rsp
  | .fault _ => none
  | .refused _ => none

end Sys2Proof.Machine
end

