-- ==== Sys2Proof/WellFormed.lean ====
section
/-! DEFINITION. Well-formedness. An instruction needs no check: its types carry every bound, and every command word has a
defined outcome (30_encoding.md R52). What can be ill formed is a command word that is not canonical (R46), an operand
that does not fit its field, a line with the wrong operands (R53), and a `%m` that names no earlier line (R55). -/

namespace Sys2Proof

/-- A command word in canonical encoding: a defined opcode and 0 in every field the command does not use (R46). -/
def CommandWord.canonical (w : CommandWord) : Bool :=
  match Mnemonic.ofOpcode (opField w) with
  | none => false
  | some m =>
    (m.operands.contains .a || aField w == 0) && (m.operands.contains .b || bField w == 0)
      && (m.operands.contains .v || vField w == 0)

/-- How wide each operand field is (R38, R53). -/
def Field.width : Field → Nat
  | .a => 64
  | .b => 64
  | .v => 8

/-- A literal fits its field (R53: "`a` and `b` must fit 64 bits and `v` must fit 8 bits"). -/
def Operand.fits (f : Field) : Operand → Bool
  | .lit k => decide (k < 2 ^ f.width)
  | .ref _ => true

/-- A reference `%m` in line `n` names an earlier line, `1 ≤ m < n` (R55: "`%m` with m < n", lines "numbered from `%1`"). -/
def Operand.earlier (n : Nat) : Operand → Bool
  | .lit _ => true
  | .ref m => decide (1 ≤ m ∧ m < n)

/-- Line number `n` of a script is well formed: exactly the operands the command uses, each fitting its field, each
reference to an earlier line (R53, R55). A literal command word needs no check (R52). -/
def ScriptLine.wellFormed (n : Nat) (l : ScriptLine) : Bool :=
  l.operands.length == l.mnemonic.operands.length && (l.mnemonic.operands.zip l.operands).all (fun p => p.2.fits p.1)
    && l.operands.all (fun o => o.earlier n)

/-- The lines of a script are well formed as line `n`, line `n + 1`, … (R55). -/
def scriptWellFormed (n : Nat) : List ScriptLine → Bool
  | [] => true
  | l :: ls => l.wellFormed n && scriptWellFormed (n + 1) ls

end Sys2Proof
end

