-- ==== Sys2Proof/Machine/Assembler.lean ====
section
/-! DEFINITION. The assembler: one line of text to a command (30_encoding.md R53, R54), and script lines (R55). The rules
leave open where blanks may stand, where an underscore may, the case of hexadecimal digits, and how a line number is
spelled; the choices are log 10.
Names end in `Text` where the argument is text. -/

namespace Sys2Proof.Machine

/-! ### Characters and literals -/

/-- A space or a tab. -/
def isBlank (c : Char) : Bool := c == ' ' || c == '\t'

/-- The value of a hexadecimal digit, of either case. -/
def digitValue (c : Char) : Option Nat :=
  let n := c.toNat
  if 48 ≤ n ∧ n ≤ 57 then some (n - 48)
  else if 97 ≤ n ∧ n ≤ 102 then some (n - 87)
  else if 65 ≤ n ∧ n ≤ 70 then some (n - 55)
  else none

/-- Digits of a base, most significant first, from the value `acc` of the digits read; "underscores may separate
digits", so one stands only between two (R53). `afterDigit` says that the character before was a digit. -/
def readDigits (base : Nat) : Nat → Bool → List Char → Option Nat
  | acc, afterDigit, [] => if afterDigit then some acc else none
  | acc, afterDigit, c :: cs =>
    if c == '_' then
      if afterDigit then readDigits base acc false cs else none
    else
      match digitValue c with
      | some d => if d < base then readDigits base (acc * base + d) true cs else none
      | none => none

/-- An unsigned integer literal: "decimal (`5`) or hexadecimal with the prefix `0x`" (R53). -/
def readLiteral : List Char → Option Nat
  | '0' :: 'x' :: cs => readDigits 16 0 false cs
  | cs => readDigits 10 0 false cs

/-- An operand: a literal, or `%m` (R53, R55). DESIGN CHOICE: how `m` may be spelled, log 10: decimal digits, leading
zeros and underscores between digits allowed, no blank after the `%`. -/
def readOperand : List Char → Option Operand
  | '%' :: cs => (readDigits 10 0 false cs).map Operand.ref
  | cs => (readLiteral cs).map Operand.lit

/-! ### The parts of a line -/

/-- "A `#` starts a comment that runs to the end of the line" (R53). -/
def dropComment (cs : List Char) : List Char := cs.takeWhile (fun c => c != '#')

/-- The text without the blanks around it. -/
def trimBlanks (cs : List Char) : List Char := ((cs.dropWhile isBlank).reverse.dropWhile isBlank).reverse

/-- The pieces between commas. -/
def splitCommas : List Char → List (List Char)
  | [] => [[]]
  | c :: cs =>
    if c == ',' then [] :: splitCommas cs
    else
      match splitCommas cs with
      | p :: ps => (c :: p) :: ps
      | [] => [[c]]

/-- The mnemonic as it is written, in capitals (R53, R54). -/
def mnemonicText : Mnemonic → List Char
  | .setall => ['S', 'E', 'T', 'A', 'L', 'L']
  | .rstall => ['R', 'S', 'T', 'A', 'L', 'L']
  | .raw => ['R', 'A', 'W']
  | .seton => ['S', 'E', 'T', 'O', 'N']
  | .setoff => ['S', 'E', 'T', 'O', 'F', 'F']
  | .set => ['S', 'E', 'T']
  | .get => ['G', 'E', 'T']
  | .flip => ['F', 'L', 'I', 'P']
  | .cnton => ['C', 'N', 'T', 'O', 'N']
  | .cntoff => ['C', 'N', 'T', 'O', 'F', 'F']
  | .mirror => ['M', 'I', 'R', 'R', 'O', 'R']
  | .ror => ['R', 'O', 'R']
  | .rol => ['R', 'O', 'L']
  | .render => ['R', 'E', 'N', 'D', 'E', 'R']

/-- All mnemonics, in opcode order (R44). -/
def allMnemonics : List Mnemonic :=
  [.setall, .rstall, .raw, .seton, .setoff, .set, .get] ++ [.flip, .cnton, .cntoff, .mirror, .ror, .rol, .render]

/-- The mnemonic a word of the line names. -/
def mnemonicOfText (cs : List Char) : Option Mnemonic := allMnemonics.find? (fun m => mnemonicText m == cs)

/-! ### Lines -/

/-- The operands after the mnemonic: none, or pieces separated by commas (R53). -/
def readOperands (cs : List Char) : Except AsmError (List Operand) :=
  if (trimBlanks cs).isEmpty then .ok []
  else
    match (splitCommas cs).mapM (fun p => readOperand (trimBlanks p)) with
    | some ops => .ok ops
    | none => .error .badOperand

/-- `MNEMONIC [a [, b [, v]]]` (R53), with the count of operands checked against the command's. -/
def readCommandText (cs : List Char) : Except AsmError ScriptLine :=
  let body := trimBlanks (dropComment cs)
  match mnemonicOfText (body.takeWhile (fun c => !isBlank c)) with
  | none => .error .unknownMnemonic
  | some m =>
    match readOperands (body.dropWhile (fun c => !isBlank c)) with
    | .error e => .error e
    | .ok ops => if ops.length = m.operands.length then .ok ⟨m, ops⟩ else .error .operandCount

/-- The instruction with these operand values, in the order `a`, `b`, `v`: "`a` and `b` must fit 64 bits and `v` must fit
8 bits, otherwise the assembler rejects the line"; 0 in every field the line does not give. An index is not checked
(R53). -/
def assembleValues (m : Mnemonic) (vals : List Nat) : Except AsmError Instr :=
  if vals.length ≠ m.operands.length then .error .operandCount
  else if (m.operands.zip vals).all (fun p => decide (p.2 < 2 ^ p.1.width)) then
    .ok (m.instr (BitVec.ofNat 64 (vals.getD 0 0)) (BitVec.ofNat 64 (vals.getD 1 0)) (BitVec.ofNat 8 (vals.getD 2 0)))
  else .error .operandTooLarge

/-- The value of a literal; a `%m` is none outside a script. -/
def literalValue : Operand → Option Nat
  | .lit n => some n
  | .ref _ => none

/-- The assembler of R53: a line of text to the instruction it stands for. -/
def assembleText (cs : List Char) : Except AsmError Instr :=
  match readCommandText cs with
  | .error e => .error e
  | .ok l =>
    match l.operands.mapM literalValue with
    | some vals => assembleValues l.mnemonic vals
    | none => .error .badReference

/-- A line as script line number `n`, where it is well formed (R53, R55). -/
def checkScriptLine (n : Nat) (l : ScriptLine) : Except AsmError ScriptLine :=
  if l.wellFormed n then .ok l
  else if l.operands.length ≠ l.mnemonic.operands.length then .error .operandCount
  else if (l.mnemonic.operands.zip l.operands).all (fun p => p.2.fits p.1) then .error .badReference
  else .error .operandTooLarge

/-- Script line number `n`: `%n = MNEMONIC operands` (R55). DESIGN CHOICE: how the line's own number may be spelled, log
10: decimal digits, leading zeros and underscores between digits allowed, blanks allowed before and after the `%`, and
before and after the `=`. -/
def readScriptText (n : Nat) (cs : List Char) : Except AsmError ScriptLine :=
  match trimBlanks (dropComment cs) with
  | '%' :: rest =>
    match readDigits 10 0 false (trimBlanks (rest.takeWhile (fun c => c != '='))), rest.dropWhile (fun c => c != '=') with
    | some k, '=' :: cmd =>
      if k = n then
        match readCommandText cmd with
        | .ok l => checkScriptLine n l
        | .error e => .error e
      else .error .badNumber
    | _, _ => .error .badNumber
  | _ => .error .badNumber

/-- A script: its lines "numbered from `%1`" (R55), read from number `n` on. -/
def readScript (n : Nat) : List (List Char) → Except AsmError (List ScriptLine)
  | [] => .ok []
  | t :: ts =>
    match readScriptText n t with
    | .error e => .error e
    | .ok l =>
      match readScript (n + 1) ts with
      | .error e => .error e
      | .ok ls => .ok (l :: ls)

/-! ### Writing a line -/

/-- A 64-bit operand, `0x` and 16 digits, as the lines of the spec write it (R53). -/
def wordText (x : Word) : List Char := '0' :: 'x' :: hexDigits 16 x.toNat

/-- An 8-bit operand, `0x` and 2 digits (R53). -/
def byteText (x : Byte) : List Char := '0' :: 'x' :: hexDigits 2 x.toNat

/-- The text of one operand field of an instruction. -/
def fieldText (i : Instr) : Field → List Char
  | .a => wordText i.aOperand
  | .b => wordText i.bOperand
  | .v => byteText i.vOperand

/-- Operands after the mnemonic, each with what stands before it: a blank, then commas. -/
def operandsText (i : Instr) (before : List Char) : List Field → List Char
  | [] => []
  | f :: fs => before ++ fieldText i f ++ operandsText i [',', ' '] fs

/-- The line that stands for an instruction: `MNEMONIC a, b, v` with the operands it uses (R53). -/
def instrText (i : Instr) : List Char :=
  mnemonicText i.mnemonic ++ operandsText i [' '] i.mnemonic.operands

end Sys2Proof.Machine
end

