-- ==== Sys2Proof/Machine/HostSide.lean ====
section
/-! DEFINITION. The host's side of a step (10_state.md R22): it builds the next command word (30_encoding.md R55), presents
it on CMD, and records the response. Hosts, and the scripts of one host, share nothing (R24): each script has its own
record and its own numbers, and a script that has stopped keeps nothing else from being sent. -/

namespace Sys2Proof.Machine

/-! ### The record of one script -/

/-- The exchanges of script `k`, oldest first. Literal words and other scripts' lines are not among them (R24, R55). -/
def scriptLog (k : Nat) (log : List Exchange) : List Exchange := log.filter (fun x => x.script == some k)

/-- The first recorded response that carries an error, with its line number, counted from `n` (R55, R98). -/
def firstError (n : Nat) : List Exchange → Option (Nat × Err)
  | [] => none
  | x :: xs =>
    match x.rsp with
    | .ok _ _ => firstError (n + 1) xs
    | .error e => some (n, e)

/-- The error script `k` has met, if any: "keep a found error for the whole script" (R98). -/
def State.recordedError (s : State) (k : Nat) : Option (Nat × Err) := firstError 1 (scriptLog k s.log)

/-- The response to line `n` in a script's record, whose lines are numbered from 1 (R55). -/
def lineResponse (record : List Exchange) : Nat → Option Response
  | 0 => none
  | n + 1 => record[n]?.map Exchange.rsp

/-- `%n`: the `y` field of the response to line `n`; "if the response to line m has `err` ≠ 0, `%m` has no value" (R55). -/
def lineY (record : List Exchange) (n : Nat) : Option Word := (lineResponse record n).bind Response.y?

/-- `%n.txt` (R55). -/
def lineTxt (record : List Exchange) (n : Nat) : Option Txt := (lineResponse record n).bind Response.txt?

/-- `%n.err` (R55). -/
def lineErr (record : List Exchange) (n : Nat) : Option (BitVec 2) := (lineResponse record n).map Response.err

/-- The value that stands for an operand: the literal, or the `y` of the response to line `m` of its script (R55). A `%m`
that names no earlier line, or a line with no result, has none. -/
def operandValue (record : List Exchange) : Operand → Option Nat
  | .lit n => some n
  | .ref m => (lineY record m).map BitVec.toNat

/-! ### Choosing the next command -/

/-- The instruction of a script line, each `%m` replaced by the host from its script's record (R55). A replaced value must
fit its field as a literal must; log 8. -/
def buildScript (record : List Exchange) (l : ScriptLine) : Except AsmError Instr :=
  match l.operands.mapM (operandValue record) with
  | some vals => assembleValues l.mnemonic vals
  | none => .error .badReference

/-- The command word of one line. A literal word is sent as it is. A script line is sent only while no response in its own
script's record carries an error: "the script stops there with that error" (R55, R98; log 6, 9). -/
def lineCommand (log : List Exchange) : Line → Host.Outcome CommandWord Fault Refusal
  | .word w => .next w
  | .script k l =>
    match firstError 1 (scriptLog k log) with
    | some (n, e) => .fault (.scriptStopped k n e)
    | none =>
      match buildScript (scriptLog k log) l with
      | .ok i => .next (encode i)
      | .error e => .refused (.lineRejected e)

/-- A line of one of the scripts `held`. -/
def heldBy (held : List Nat) (l : Line) : Bool :=
  match l.script? with
  | some k => held.contains k
  | none => false

/-- A line that is passed over stays where it is. -/
def keepLine (l : Line) : Host.Outcome Sent Fault Refusal → Host.Outcome Sent Fault Refusal
  | .next f => .next { f with rest := l :: f.rest }
  | .fault e => .fault e
  | .refused r => .refused r

/-- What comes of the lines behind or, where none of them can be sent, this reason. -/
def sentOr (reason : Host.Outcome Sent Fault Refusal) : Host.Outcome Sent Fault Refusal → Host.Outcome Sent Fault Refusal
  | .next f => .next f
  | .fault _ => reason
  | .refused _ => reason

/-- The first of these lines that can be sent. A line that cannot be sent holds back the later lines of its own script,
whose numbers come after it, and no other line: a literal word, or another script's line, behind it is sent (R24, R98,
R114). DESIGN CHOICE: log 6. -/
def fetchFrom (log : List Exchange) : List Nat → List Line → Host.Outcome Sent Fault Refusal
  | _, [] => .refused .noCommandPresented
  | held, l :: ls =>
    if heldBy held l then keepLine l (fetchFrom log held ls)
    else
      match lineCommand log l with
      | .next w => .next { word := w, script := l.script?, rest := ls }
      | .fault f => sentOr (.fault f) (keepLine l (fetchFrom log (l.script?.toList ++ held) ls))
      | .refused r => sentOr (.refused r) (keepLine l (fetchFrom log (l.script?.toList ++ held) ls))

/-- What is presented next. With nothing left to send there is no command and no response (R112, U6; log 4); with only
lines left that cannot be sent, the reason of the first of them is the outcome (R55; log 6). -/
def fetch (s : State) : Host.Outcome Sent Fault Refusal := fetchFrom s.log [] s.pending

/-! ### The exchange -/

/-- A command word is presented on CMD; the line it came from is sent. -/
def State.present (s : State) (f : Sent) : State := { s with cmd := some f.word, pending := f.rest }

/-- The host reads the ports and records the exchange, of the script it was sent for: the n-th response answers the n-th
command (R33). -/
def State.record (s : State) (script : Option Nat) : State :=
  match s.cmd, s.rsp with
  | some w, some r => { s with log := s.log ++ [⟨w, r, script⟩] }
  | _, _ => s

/-- Loading a program from outside: the list grows by these lines (R112; log 7). -/
def State.load (s : State) (ls : List Line) : State := { s with pending := s.pending ++ ls }

end Sys2Proof.Machine
end

