-- ==== Sys2Proof/Machine/Step.lean ====
section
/-! DEFINITION. One step: the host presents the next command, the block answers, the host records the exchange
(10_state.md R19, R22; 70_reset_and_hazards.md R112). Log 6, 7. -/

namespace Sys2Proof.Machine

/-- One exchange. -/
def step (s : State) : Host.Outcome State Fault Refusal :=
  match fetch s with
  | .next f =>
    match blockOnPort (s.present f) with
    | .next t => .next (t.record f.script)
    | .fault f => .fault f
    | .refused r => .refused r
  | .fault f => .fault f
  | .refused r => .refused r

/-- `s` with this command word as the very next line to be sent, in front of the lines already there; bits from `nbits` up
are 0. It stands for loading a program from outside: log 7. -/
def State.withFetchWord (s : State) (nbits w : Nat) : State :=
  { s with pending := .word (BitVec.ofNat 144 (w % 2 ^ nbits)) :: s.pending }

end Sys2Proof.Machine
end

