-- ==== Sys2Proof/Safety.lean ====
section
/-! DEFINITION. What claims are stated in: the result of a command, a good run (70_reset_and_hazards.md R112), the host's
duties as premises (60_exceptions.md R104), and the invariants of a run. -/

namespace Sys2Proof.Machine

/-! ### The result of one command -/

/-- The response `exec` gives an instruction, read off RSP at reset; that the state does not matter is stated as
obligations (R10). -/
def replyOf (i : Instr) : Option Response :=
  match exec i State.reset with
  | .next t => t.rsp
  | .fault _ => none
  | .refused _ => none

/-- `CMD(…).y`, as the laws of the family files write it; none where the response carries an error. -/
def yOf (i : Instr) : Option Word := (replyOf i).bind Response.y?

/-- `CMD(…).txt`; none where the response carries an error. -/
def txtOf (i : Instr) : Option Txt := (replyOf i).bind Response.txt?

/-- The five index commands, applied (R66). -/
def indexCommands (a b : Word) (v : Byte) : List Instr :=
  [.seton a b, .setoff a b, .set a b v, .get a b, .flip a b]

/-- A bit number 0 to 63 as the index operand (R47). -/
def idx (i : Fin 64) : Word := BitVec.ofNat 64 i.val

/-! ### Runs -/

/-- "a run is good when every response has `err` = 0" (R112). -/
def goodRun (s : State) : Bool := s.log.all (fun x => x.rsp.isOk)

/-- The host's duty R104 for script `k`: no error recorded. -/
def State.noErrorRecorded (s : State) (k : Nat) : Prop := s.recordedError k = none

/-- The host's duty R104 for script `k`: every `%m` operand refers to a response with `err` = 0. -/
def State.refsAnswered (s : State) (k : Nat) (ops : List Operand) : Prop :=
  ∀ m, Operand.ref m ∈ ops → ∃ j x y t, m = j + 1 ∧ (scriptLog k s.log)[j]? = some x ∧ x.rsp = .ok y t

/-! ### What belongs to one script -/

/-- The lines of script `k` among these, in their order. -/
def scriptLines (k : Nat) : List Line → List ScriptLine
  | [] => []
  | .word _ :: ls => scriptLines k ls
  | .script j l :: ls => if j = k then l :: scriptLines k ls else scriptLines k ls

/-- The state as the owner of one script sees it, or (`none`) as the senders of literal words do: the ports, and those
lines and exchanges alone (R24). -/
def State.only (s : State) (o : Option Nat) : State :=
  { s with pending := s.pending.filter (fun l => l.script? == o), log := s.log.filter (fun x => x.script == o) }

/-! ### Invariants -/

/-- Every recorded response is the block's answer to its command word (R112: "each equal to `exec` of its command
word"), and the ports show the last exchange. -/
def State.LogSound (s : State) : Prop :=
  (∀ x ∈ s.log, answer x.cmd = some x.rsp)
    ∧ ∀ x, s.log.getLast? = some x → s.cmd = some x.cmd ∧ s.rsp = some x.rsp

/-- The lines of every script still to be sent are well formed under their numbers, which go on from the lines of that
script already recorded (R55). -/
def State.ScriptSound (s : State) : Prop :=
  ∀ k, scriptWellFormed ((scriptLog k s.log).length + 1) (scriptLines k s.pending) = true

end Sys2Proof.Machine
end

