-- ==== Sys2Proof/Certificates/Slice0/Obligations.lean ====
section
/-! DEFINITION. The statements for the provers. Each docstring says what is stated and which rule of spec/ it formalises;
`derived` statements say which log entry they rest on where they rest on one. -/

open Sys2Proof Sys2Proof.Machine

/-- For every instruction, with every operand at every value, the decoder reads the canonical command word back as that
instruction; carried as 18 bytes in front of any other bytes, the byte decoder answers the instruction and leaves
exactly the other bytes. (Derived from 30_encoding.md R38, 30_encoding.md R44, 30_encoding.md R46, 20_memory.md
R28.) -/
def Obligations.DecodeEncodeRoundTrip : Prop :=
  ∀ i : Instr, decodeWord (encode i) = .ok i ∧ ∀ rest : List Byte, decode (encodeBytes i ++ rest) = .ok (i, rest)

/-- Every canonical command word (a defined opcode, 0 in every unused field) decodes to some instruction, and encoding
that instruction gives the word back. (Derived from 30_encoding.md R46, 30_encoding.md R52.) -/
def Obligations.CanonicalWordsHaveOneMeaning : Prop :=
  ∀ w : CommandWord, CommandWord.canonical w = true → ∃ i, decodeWord w = .ok i ∧ encode i = w

/-- For every command word and every row of the opcode table: the word under the mask 0xFF shifted left by 136 equals
the row's match value exactly when the decoder reads the row's command; the decoder refuses exactly when no row
matches. Two words with the same op field decode to commands of the same mnemonic, or both are refused. (Formalises
R43.) -/
def Obligations.DecodingLooksAtOpOnly : Prop :=
  (∀ (w : CommandWord) (row : OpcodeRow), row ∈ opcodeTable →
      (row.hits w = true ↔ ∃ i, decodeWord w = .ok i ∧ i.mnemonic = row.mnemonic))
    ∧ (∀ w : CommandWord, (∀ row ∈ opcodeTable, row.hits w = false) ↔ ∃ e, decodeWord w = .error e)
    ∧ opcodeMask = 0xFF#144 <<< 136
    ∧ ∀ w w' : CommandWord, opField w = opField w' →
        (∃ i i', decodeWord w = .ok i ∧ decodeWord w' = .ok i' ∧ i.mnemonic = i'.mnemonic)
          ∨ (∃ e e', decodeWord w = .error e ∧ decodeWord w' = .error e')

/-- For every command word, bit k of a, b, v, op is bit k, 64 + k, 128 + k, 136 + k of the word, and the word is made of
exactly these four fields. (Formalises R38.) -/
def Obligations.CommandFieldsStandWhereTheFormatPutsThem : Prop :=
  ∀ w : CommandWord,
    (∀ k, k < 64 → (aField w).getLsbD k = w.getLsbD k ∧ (bField w).getLsbD k = w.getLsbD (64 + k))
      ∧ (∀ k, k < 8 → (vField w).getLsbD k = w.getLsbD (128 + k) ∧ (opField w).getLsbD k = w.getLsbD (136 + k))
      ∧ assembleFields (opField w) (vField w) (bField w) (aField w) = w

/-- For every command word, its carried form has 18 bytes, bit k of byte n is bit 8n+k of the word, and the 18 bytes
give the word back; byte 0 to 7 are a, 8 to 15 are b, byte 16 is v and byte 17 is op. For every response word, its
carried form has 73 bytes, bit k of byte n is bit 8n+k of the word wherever the word has that bit, and the 73 bytes
give the word back. For every rendering field txt, byte j of its 64 little-endian bytes is character j. That a
carried response has 73 bytes is the model's choice, log 15: R28 gives no length for it. (Derived from 20_memory.md
R28, 30_encoding.md R39, 30_encoding.md R41.) -/
def Obligations.PortBytesAreLittleEndian : Prop :=
  (∀ w : CommandWord,
      (bytesOfCommand w).length = 18
        ∧ (∀ n k, n < 18 → k < 8 → ∃ c, (bytesOfCommand w)[n]? = some c ∧ c.getLsbD k = w.getLsbD (8 * n + k))
        ∧ commandOfBytes (bytesOfCommand w) = w
        ∧ bytesOfCommand w = bytesOfNat 8 (aField w).toNat ++ bytesOfNat 8 (bField w).toNat ++ [vField w, opField w])
    ∧ (∀ z : ResponseWord,
        (bytesOfResponse z).length = 73
          ∧ (∀ n k, k < 8 → 8 * n + k < 578 → ∃ c, (bytesOfResponse z)[n]? = some c ∧ c.getLsbD k = z.getLsbD (8 * n + k))
          ∧ responseOfBytes (bytesOfResponse z) = z)
    ∧ ∀ (t : Txt) (j : Nat), j < 64 → (bytesOfNat 64 t.toNat)[j]? = some (txtChar t j)

/-- For every command word, its spelling is 0x and 36 hexadecimal digits: 2 of op, 2 of v, 16 of b, 16 of a, and reading
it as a literal gives the word's value. The rule's example, SETON 0x0000000000000000, 5, is spelled and carried in
bytes as the rule prints it. That letters among the digits are small is the model's choice, log 10. (Derived from
30_encoding.md R39, 30_encoding.md R53.) -/
def Obligations.SpelledCommandWordReadsBack : Prop :=
  (∀ w : CommandWord,
      (spellCommand w).length = 38
        ∧ readLiteral (spellCommand w) = some w.toNat
        ∧ spellCommand w = ['0', 'x'] ++ hexDigits 2 (opField w).toNat ++ hexDigits 2 (vField w).toNat
            ++ hexDigits 16 (bField w).toNat ++ hexDigits 16 (aField w).toNat)
    ∧ spellCommand (encode (.seton 0 5)) = "0x030000000000000000050000000000000000".toList
    ∧ encodeBytes (.seton 0 5) = [0, 0, 0, 0, 0, 0, 0, 0, 5, 0, 0, 0, 0, 0, 0, 0, 0, 3]

/-- Six command words printed in 95_test_vectors.md, one a family, decode to the command printed beside them: RAW (2.1)
and CNTON (P6), both with junk in unused fields, SET (P4 line 3), MIRROR (2.4), ROR (P6), RENDER (P2 line 6). The
first reserved word of 2.7 with b = 64 is refused. (Derived from 30_encoding.md R38, 30_encoding.md R44,
30_encoding.md R51, 95_test_vectors.md section 2.1, 95_test_vectors.md section 2.4, 95_test_vectors.md section 2.7,
95_test_vectors.md P2, 95_test_vectors.md P4, 95_test_vectors.md P6.) -/
def Obligations.SampleWordsDecodeToTheirCommands : Prop :=
  decodeWord 0x02ffffffffffffffffff0123456789abcdef#144 = .ok (.raw 0x0123456789abcdef#64)
    ∧ decodeWord 0x0580000000000000003f0000000000000001#144 = .ok (.set 0x0000000000000001#64 63#64 0x80#8)
    ∧ decodeWord 0x0855ffffffffffffffff0000000000000020#144 = .ok (.cnton 0x20#64)
    ∧ decodeWord 0x0a0000000000000000000123456789abcdef#144 = .ok (.mirror 0x0123456789abcdef#64)
    ∧ decodeWord 0x0b0000000000000000450000000000000020#144 = .ok (.ror 0x20#64 69#64)
    ∧ decodeWord 0x0d000000000000000000f7b3d591e6a2c480#144 = .ok (.render 0xf7b3d591e6a2c480#64)
    ∧ decodeWord 0x0e0000000000000000400000000000000000#144 = .error (.reservedOpcode 0x0e#8)

/-- If two command words have the same defined opcode and agree on every field that opcode uses, the block answers them
alike from every state. The fields used are those of the opcode map, command by command. The canonical encoding puts
0 in every unused field. (Formalises R46.) -/
def Obligations.UnusedFieldsAreIgnored : Prop :=
  (∀ (w w' : CommandWord) (m : Mnemonic) (s : State),
      Mnemonic.ofOpcode (opField w) = some m → opField w' = opField w →
      (Field.a ∈ m.operands → aField w' = aField w) → (Field.b ∈ m.operands → bField w' = bField w) →
      (Field.v ∈ m.operands → vField w' = vField w) → blockStep w' s = blockStep w s)
    ∧ (∀ m ∈ [Mnemonic.setall, .rstall], m.operands = [])
    ∧ (∀ m ∈ [Mnemonic.raw, .cnton, .cntoff, .mirror, .render], m.operands = [.a])
    ∧ (∀ m ∈ [Mnemonic.seton, .setoff, .get, .flip, .ror, .rol], m.operands = [.a, .b])
    ∧ Mnemonic.set.operands = [.a, .b, .v]
    ∧ ∀ i : Instr, CommandWord.canonical (encode i) = true

/-- A command word with op at or above 0x0E is refused by the decoder, and the block answers it, from every state and
whatever the operand fields hold, with the error IllegalOp, err = 2, and no result, changing nothing else. A word
with op below 0x0E decodes, and the block answers it, from every state, with a response that is not IllegalOp.
(Formalises R51, R93.) -/
def Obligations.ReservedOpcodesRaiseIllegalOp : Prop :=
  (∀ (w : CommandWord) (s : State), 0x0E ≤ (opField w).toNat →
      decodeWord w = .error (.reservedOpcode (opField w))
        ∧ blockStep w s = .next { s with rsp := some (.error .illegalOp) })
    ∧ (Response.error .illegalOp).err = 2#2
    ∧ ∀ (w : CommandWord) (s : State), (opField w).toNat < 0x0E →
        (∃ i, decodeWord w = .ok i)
          ∧ ∃ r : Response, blockStep w s = .next { s with rsp := some r } ∧ r ≠ .error .illegalOp ∧ r.err ≠ 2#2

/-- From every state SETALL completes with y = 0xFFFFFFFFFFFFFFFF, txt = 0, err = 0, nothing else changed; its canonical
word is all zero; every command word with op = 0x00 gives the same response. (Formalises R57.) -/
def Obligations.SetallGivesAllOnes : Prop :=
  (∀ s : State, exec .setall s = .next { s with rsp := some (.ok 0xFFFFFFFFFFFFFFFF#64 0) })
    ∧ encode .setall = 0x000000000000000000000000000000000000#144
    ∧ ∀ (w : CommandWord) (s : State), opField w = 0x00#8 →
        blockStep w s = .next { s with rsp := some (.ok 0xFFFFFFFFFFFFFFFF#64 0) }

/-- From every state RSTALL completes with y = 0, txt = 0, err = 0, nothing else changed; its canonical word is 0x01
followed by zeros; every command word with op = 0x01 gives the same response. (Formalises R58.) -/
def Obligations.RstallGivesZero : Prop :=
  (∀ s : State, exec .rstall s = .next { s with rsp := some (.ok 0x0000000000000000#64 0) })
    ∧ encode .rstall = 0x010000000000000000000000000000000000#144
    ∧ ∀ (w : CommandWord) (s : State), opField w = 0x01#8 →
        blockStep w s = .next { s with rsp := some (.ok 0x0000000000000000#64 0) }

/-- From every state and for every a, RAW completes with y = a, txt = 0, err = 0, nothing else changed; its canonical
word is 0x02 00, eight zero bytes and a; every command word with op = 0x02 gives the response of its a field, b and
v ignored. (Formalises R59.) -/
def Obligations.RawGivesItsOperand : Prop :=
  (∀ (a : Word) (s : State), exec (.raw a) s = .next { s with rsp := some (.ok a 0) })
    ∧ (∀ a : Word, encode (.raw a) = assembleFields 0x02#8 0#8 0#64 a)
    ∧ ∀ (w : CommandWord) (s : State), opField w = 0x02#8 →
        blockStep w s = .next { s with rsp := some (.ok (aField w) 0) }

/-- For b below 64, SETON completes from every state with y = a | (1 << b): bit b is 1, every other bit is as in a, txt
= 0, err = 0, nothing else changed. For b of 64 or more it answers IndexRange with no result, nothing else changed.
Its word is 0x03 00 b a, and every word with op = 0x03 runs it on its a and b fields. (Formalises R61.) -/
def Obligations.SetonForcesTheBitToOne : Prop :=
  (∀ (a b : Word) (s : State), b.toNat < 64 → ∃ y : Word,
      exec (.seton a b) s = .next { s with rsp := some (.ok y 0) } ∧ y = a ||| (0x0000000000000001#64 <<< b.toNat)
        ∧ y.getLsbD b.toNat = true ∧ ∀ j, j < 64 → j ≠ b.toNat → y.getLsbD j = a.getLsbD j)
    ∧ (∀ (a b : Word) (s : State), 64 ≤ b.toNat →
        exec (.seton a b) s = .next { s with rsp := some (.error .indexRange) })
    ∧ (∀ (a b : Word), encode (.seton a b) = assembleFields 0x03#8 0x00#8 b a)
    ∧ ∀ (w : CommandWord) (s : State), opField w = 0x03#8 → blockStep w s = exec (.seton (aField w) (bField w)) s

/-- For b below 64, SETOFF completes from every state with y = a & ~(1 << b): bit b is 0, every other bit is as in a,
txt = 0, err = 0, nothing else changed; of all ones it leaves all ones but bit b. For b of 64 or more it answers
IndexRange with no result. Its word is 0x04 00 b a, and every word with op = 0x04 runs it on its a and b fields.
(Formalises R62.) -/
def Obligations.SetoffForcesTheBitToZero : Prop :=
  (∀ (a b : Word) (s : State), b.toNat < 64 → ∃ y : Word,
      exec (.setoff a b) s = .next { s with rsp := some (.ok y 0) } ∧ y = a &&& ~~~(0x0000000000000001#64 <<< b.toNat)
        ∧ y.getLsbD b.toNat = false ∧ (∀ j, j < 64 → j ≠ b.toNat → y.getLsbD j = a.getLsbD j)
        ∧ (a = 0xFFFFFFFFFFFFFFFF#64 → y = 0xFFFFFFFFFFFFFFFF#64 ^^^ (1#64 <<< b.toNat)))
    ∧ (∀ (a b : Word) (s : State), 64 ≤ b.toNat →
        exec (.setoff a b) s = .next { s with rsp := some (.error .indexRange) })
    ∧ (∀ (a b : Word), encode (.setoff a b) = assembleFields 0x04#8 0x00#8 b a)
    ∧ ∀ (w : CommandWord) (s : State), opField w = 0x04#8 → blockStep w s = exec (.setoff (aField w) (bField w)) s

/-- For b below 64, SET completes from every state with y as SETON gives it when v is not 0 (all eight bits are tested)
and as SETOFF gives it when v is 0: bit b is 1 exactly when v is not 0, every other bit is as in a. For b of 64 or
more it answers IndexRange with no result, whatever v is. Its word is 0x05 v b a, and every word with op = 0x05 runs
it on its a, b and v fields. (Formalises R63.) -/
def Obligations.SetChoosesByTheWholeValue : Prop :=
  (∀ (a b : Word) (v : Byte) (s : State), b.toNat < 64 → ∃ y : Word,
      exec (.set a b v) s = .next { s with rsp := some (.ok y 0) } ∧ y = (if v ≠ 0#8 then a ||| (0x0000000000000001#64 <<< b.toNat)
          else a &&& ~~~(0x0000000000000001#64 <<< b.toNat))
        ∧ y.getLsbD b.toNat = decide (v ≠ 0#8) ∧ ∀ j, j < 64 → j ≠ b.toNat → y.getLsbD j = a.getLsbD j)
    ∧ (∀ (a b : Word) (v : Byte) (s : State), 64 ≤ b.toNat →
        exec (.set a b v) s = .next { s with rsp := some (.error .indexRange) })
    ∧ (∀ (a b : Word) (v : Byte), encode (.set a b v) = assembleFields 0x05#8 v b a)
    ∧ ∀ (w : CommandWord) (s : State), opField w = 0x05#8 → blockStep w s = exec (.set (aField w) (bField w) (vField w)) s

/-- For b below 64, GET completes from every state with y = (a >> b) & 1, which is 1 when bit b of a is 1 and 0 when it
is 0, so bits 63:1 of y are 0; txt = 0, err = 0, nothing else changed. For b of 64 or more it answers IndexRange
with no result. Its word is 0x06 00 b a, and every word with op = 0x06 runs it on its a and b fields. (Formalises
R64.) -/
def Obligations.GetReadsTheBit : Prop :=
  (∀ (a b : Word) (s : State), b.toNat < 64 → ∃ y : Word,
      exec (.get a b) s = .next { s with rsp := some (.ok y 0) } ∧ y = (a >>> b.toNat) &&& 0x0000000000000001#64
        ∧ y = (if a.getLsbD b.toNat then 1#64 else 0#64))
    ∧ (∀ (a b : Word) (s : State), 64 ≤ b.toNat →
        exec (.get a b) s = .next { s with rsp := some (.error .indexRange) })
    ∧ (∀ (a b : Word), encode (.get a b) = assembleFields 0x06#8 0x00#8 b a)
    ∧ ∀ (w : CommandWord) (s : State), opField w = 0x06#8 → blockStep w s = exec (.get (aField w) (bField w)) s

/-- For b below 64, FLIP completes from every state with y = a ^ (1 << b): bit b is complemented, every other bit is as
in a, txt = 0, err = 0, nothing else changed; FLIP of y at the same index gives a back. For b of 64 or more it
answers IndexRange with no result. Its word is 0x07 00 b a, and every word with op = 0x07 runs it on its a and b
fields. (Formalises R65.) -/
def Obligations.FlipComplementsTheBit : Prop :=
  (∀ (a b : Word) (s : State), b.toNat < 64 → ∃ y : Word,
      exec (.flip a b) s = .next { s with rsp := some (.ok y 0) } ∧ y = a ^^^ (0x0000000000000001#64 <<< b.toNat)
        ∧ y.getLsbD b.toNat = !a.getLsbD b.toNat
        ∧ (∀ j, j < 64 → j ≠ b.toNat → y.getLsbD j = a.getLsbD j)
        ∧ exec (.flip y b) s = .next { s with rsp := some (.ok a 0) })
    ∧ (∀ (a b : Word) (s : State), 64 ≤ b.toNat →
        exec (.flip a b) s = .next { s with rsp := some (.error .indexRange) })
    ∧ (∀ (a b : Word), encode (.flip a b) = assembleFields 0x07#8 0x00#8 b a)
    ∧ ∀ (w : CommandWord) (s : State), opField w = 0x07#8 → blockStep w s = exec (.flip (aField w) (bField w)) s

/-- The tree is the dataflow of the rule: three masked pairwise stages, three shift-and-add stages of 8, 16, 32, and the
7-bit mask. From every state CNTON completes with that count zero-extended in y and CNTOFF with 64 minus it, txt =
0, err = 0, nothing else changed. (Formalises R69.) -/
def Obligations.CountCommandsRunTheTree : Prop :=
  (∀ x t1 t2 t3 t4 t5 t6 : Word,
      t1 = (x &&& 0x5555555555555555#64) + ((x >>> 1) &&& 0x5555555555555555#64) →
      t2 = (t1 &&& 0x3333333333333333#64) + ((t1 >>> 2) &&& 0x3333333333333333#64) →
      t3 = (t2 &&& 0x0f0f0f0f0f0f0f0f#64) + ((t2 >>> 4) &&& 0x0f0f0f0f0f0f0f0f#64) →
      t4 = t3 + (t3 >>> 8) → t5 = t4 + (t4 >>> 16) → t6 = t5 + (t5 >>> 32) →
      swarCount x = (t6 &&& 0x7f#64).setWidth 7)
    ∧ (∀ (a : Word) (s : State), exec (.cnton a) s = .next { s with rsp := some (.ok ((swarCount a).setWidth 64) 0) })
    ∧ ∀ (a : Word) (s : State), exec (.cntoff a) s = .next { s with rsp := some (.ok ((64#7 - swarCount a).setWidth 64) 0) }

/-- For every 64-bit x the tree's result, and so CNTON's y, is the number of indices i in 0 to 63 with x[i] = 1. The
stage forms t1 = x - ((x >> 1) & M1) and t3 = (t2 + (t2 >> 4)) & M4 give the same stages. (Formalises R71.) -/
def Obligations.SwarTreeCountsEveryWord : Prop :=
  ∀ x : Word, yOf (.cnton x) = some (BitVec.ofNat 64 (popcount x)) ∧ (swarCount x).toNat = popcount x
    ∧ altT1 x = swarT1 x ∧ altT3 (swarT2 x) = swarT3 x

/-- After t1, t2, t3 each lane of 2, 4, 8 bits holds the number of 1 bits of x it covers; byte lane 0 of t4, t5, t6
holds the count of bytes 0 to 1, 0 to 3, 0 to 7; for all ones t6 is 0x0810182028303840. (Derived from 42_popcount.md
section 2, R70.) -/
def Obligations.SwarLanesHoldTheirCounts : Prop :=
  (∀ (x : Word) (p : Nat),
      (p < 32 → (lane 2 p (swarT1 x)).toNat = onesIn x (2 * p) 2)
        ∧ (p < 16 → (lane 4 p (swarT2 x)).toNat = onesIn x (4 * p) 4)
        ∧ (p < 8 → (lane 8 p (swarT3 x)).toNat = onesIn x (8 * p) 8))
    ∧ (∀ x : Word, (lane 8 0 (swarT4 x)).toNat = onesIn x 0 16 ∧ (lane 8 0 (swarT5 x)).toNat = onesIn x 0 32
        ∧ (lane 8 0 (swarT6 x)).toNat = onesIn x 0 64)
    ∧ swarT6 0xFFFFFFFFFFFFFFFF#64 = 0x0810182028303840#64

/-- From every state and for every a, CNTON completes with y = popcount(a), at most 64, so bits 63:7 of y are 0, txt =
0, err = 0, nothing else changed, and this is the zero-extended tree count. Its word is 0x08 00, eight zero bytes
and a; every word with op = 0x08 runs it on its a field. (Formalises R68.) -/
def Obligations.CntonCountsOneBits : Prop :=
  (∀ (a : Word) (s : State), exec (.cnton a) s = .next { s with rsp := some (.ok (BitVec.ofNat 64 (popcount a)) 0) })
    ∧ (∀ a : Word, popcount a ≤ 64 ∧ (BitVec.ofNat 64 (popcount a) : Word).extractLsb' 7 57 = 0
        ∧ BitVec.ofNat 64 (popcount a) = (swarCount a).setWidth 64)
    ∧ (∀ a : Word, encode (.cnton a) = assembleFields 0x08#8 0#8 0#64 a)
    ∧ ∀ (w : CommandWord) (s : State), opField w = 0x08#8 → blockStep w s = exec (.cnton (aField w)) s

/-- From every state and for every a, CNTOFF completes with y = 64 - popcount(a), the number of indices with a[i] = 0,
never wrapping, txt = 0, err = 0, nothing else changed; it is what CNTON gives for ~a. Its word is 0x09 00, eight
zero bytes and a; every word with op = 0x09 runs it on its a field. (Formalises R72.) -/
def Obligations.CntoffCountsZeroBits : Prop :=
  (∀ (a : Word) (s : State),
      exec (.cntoff a) s = .next { s with rsp := some (.ok (BitVec.ofNat 64 (64 - popcount a)) 0) }
        ∧ exec (.cntoff a) s = exec (.cnton (~~~a)) s)
    ∧ (∀ a : Word, popcount a ≤ 64 ∧ 64 - popcount a = (List.range 64).countP (fun i => !a.getLsbD i)
        ∧ (BitVec.ofNat 64 (64 - popcount a) : Word).extractLsb' 7 57 = 0)
    ∧ (∀ a : Word, encode (.cntoff a) = assembleFields 0x09#8 0#8 0#64 a)
    ∧ ∀ (w : CommandWord) (s : State), opField w = 0x09#8 → blockStep w s = exec (.cntoff (aField w)) s

/-- From every state and for every a, MIRROR completes with y = butterfly(a) = rev64(a), that is y[i] = a[63-i] for
every i, txt = 0, err = 0, nothing else changed. Its word is 0x0A 00, eight zero bytes and a; every word with op =
0x0A runs it on its a field. (Formalises R75.) -/
def Obligations.MirrorReversesTheBits : Prop :=
  (∀ (a : Word) (s : State), exec (.mirror a) s = .next { s with rsp := some (.ok (butterfly a) 0) }
      ∧ butterfly a = rev64 a ∧ ∀ i, i < 64 → (butterfly a).getLsbD i = a.getLsbD (63 - i))
    ∧ (∀ a : Word, encode (.mirror a) = assembleFields 0x0A#8 0#8 0#64 a)
    ∧ ∀ (w : CommandWord) (s : State), opField w = 0x0A#8 → blockStep w s = exec (.mirror (aField w)) s

/-- The butterfly applies the stages of width 32, 16, 8, 4, 2, 1 in this order. In each, the left mask is the complement
of the right mask and the right mask shifted left by the width; the right mask has bit i exactly when i mod 2w < w;
a stage is ((x & R) << w) | ((x & L) >> w), and + or ^ in the place of | give the same. (Formalises R76.) -/
def Obligations.ButterflyStagesHaveTheirMasks : Prop :=
  (∀ x : Word, butterfly x = swapStages.foldl (fun y st => swapBlocks st.width st.rightMask st.leftMask y) x)
    ∧ swapStages.map (fun st => st.width.val) = [32, 16, 8, 4, 2, 1]
    ∧ ∀ st ∈ swapStages,
        st.leftMask = ~~~st.rightMask ∧ st.leftMask = st.rightMask <<< st.width.val
          ∧ (∀ i, i < 64 → st.rightMask.getLsbD i = decide (i % (2 * st.width.val) < st.width.val))
          ∧ ∀ x : Word,
              swapBlocks st.width st.rightMask st.leftMask x
                  = ((x &&& st.rightMask) <<< st.width.val ||| (x &&& st.leftMask) >>> st.width.val)
                ∧ swapBlocks st.width st.rightMask st.leftMask x
                  = (x &&& st.rightMask) <<< st.width.val + (x &&& st.leftMask) >>> st.width.val
                ∧ swapBlocks st.width st.rightMask st.leftMask x
                  = ((x &&& st.rightMask) <<< st.width.val ^^^ (x &&& st.leftMask) >>> st.width.val)

/-- The stage of width w moves the bit at index i to index i xor w, and the six stages applied in any order give
rev64(x), y[i] = x[63-i], for every x. (Formalises R77.) -/
def Obligations.ButterflyIsTheExactMirrorInAnyOrder : Prop :=
  (∀ st ∈ swapStages, ∀ (x : Word) (i : Nat), i < 64 →
      (swapBlocks st.width st.rightMask st.leftMask x).getLsbD (i ^^^ st.width.val) = x.getLsbD i)
    ∧ ∀ order : List SwapStage, order.Perm swapStages → ∀ x : Word,
        order.foldl (fun y st => swapBlocks st.width st.rightMask st.leftMask y) x = rev64 x

/-- From every state and for every a and b, with s = b mod 64, ROR completes with y = a when s is 0 and (a >> s) | (a <<
(64 - s)) otherwise, which is rotr64(a, s), y[i] = a[(i + s) mod 64]; txt = 0, err = 0, nothing else changed, no b
is an error. Its word is 0x0B 00 b a; every word with op = 0x0B runs it on its a and b fields. (Formalises R80.) -/
def Obligations.RorRotatesRight : Prop :=
  (∀ (a b : Word) (s : State), ∃ y : Word,
      exec (.ror a b) s = .next { s with rsp := some (.ok y 0) }
        ∧ y = (if b.toNat % 64 = 0 then a else a >>> (b.toNat % 64) ||| a <<< (64 - b.toNat % 64))
        ∧ y = rotr64 a (b.toNat % 64)
        ∧ ∀ i, i < 64 → y.getLsbD i = a.getLsbD ((i + b.toNat % 64) % 64))
    ∧ (∀ a b : Word, encode (.ror a b) = assembleFields 0x0B#8 0#8 b a)
    ∧ ∀ (w : CommandWord) (s : State), opField w = 0x0B#8 → blockStep w s = exec (.ror (aField w) (bField w)) s

/-- From every state and for every a and b, with s = b mod 64, ROL completes with y = rotr64(a, (64 - s) mod 64), y[i] =
a[(i - s) mod 64], which for s from 1 to 63 is (a << s) | (a >> (64 - s)) and for s = 0 is a; the reading (64 - b)
mod 64 with a 64-bit wrapping difference gives the same; txt = 0, err = 0, nothing else changed, no b is an error.
Its word is 0x0C 00 b a; every word with op = 0x0C runs it on its a and b fields. (Formalises R83, R84.) -/
def Obligations.RolRotatesLeft : Prop :=
  (∀ (a b : Word) (s : State), ∃ y : Word,
      exec (.rol a b) s = .next { s with rsp := some (.ok y 0) }
        ∧ y = rotr64 a ((64 - b.toNat % 64) % 64)
        ∧ y = rotr64 a ((64#64 - b).toNat % 64)
        ∧ (∀ i, i < 64 → y.getLsbD i = a.getLsbD ((i + 64 - b.toNat % 64) % 64))
        ∧ y = (if b.toNat % 64 = 0 then a else a <<< (b.toNat % 64) ||| a >>> (64 - b.toNat % 64)))
    ∧ (∀ a b : Word, encode (.rol a b) = assembleFields 0x0C#8 0#8 b a)
    ∧ ∀ (w : CommandWord) (s : State), opField w = 0x0C#8 → blockStep w s = exec (.rol (aField w) (bField w)) s

/-- For every word and every amount 0 to 63, six stages, stage k rotating right by 2^k when bit k of the amount is 1,
give what the rotator of ROR gives, the identity at 0 included. (Formalises R82.) -/
def Obligations.BarrelRotatorGivesTheSameWord : Prop :=
  ∀ (x : Word) (s : Fin 64), barrel x s = rotateRight x s

/-- From every state and for every a, RENDER completes with y = 0, err = 0 and a txt whose character j, txt[8j+7:8j], is
0x31 when bit 63-j of a is 1 and 0x30 when it is 0, which is 0x30 with that bit in bit 0; nothing else changed. Its
word is 0x0D 00, eight zero bytes and a; every word with op = 0x0D runs it on its a field. (Formalises R87, R89.) -/
def Obligations.RenderWritesSixtyFourCharacters : Prop :=
  (∀ (a : Word) (s : State), ∃ t : Txt,
      exec (.render a) s = .next { s with rsp := some (.ok 0 t) }
        ∧ ∀ j, j < 64 →
            t.extractLsb' (8 * j) 8 = (if a.getLsbD (63 - j) then 0x31#8 else 0x30#8)
              ∧ t.extractLsb' (8 * j) 8 = (0x30#8 ||| (a.extractLsb' (63 - j) 1).setWidth 8))
    ∧ (∀ a : Word, encode (.render a) = assembleFields 0x0D#8 0#8 0#64 a)
    ∧ ∀ (w : CommandWord) (s : State), opField w = 0x0D#8 → blockStep w s = exec (.render (aField w)) s

/-- For every a, emitting bit j of butterfly(a), or of rev64(a), as character j for j from 0 to 63 is the rendering.
(Formalises R88.) -/
def Obligations.RenderingIsTheMirrorInCharacters : Prop :=
  ∀ (a : Word) (j : Nat), j < 64 →
    txtChar (render a) j = (if (butterfly a).getLsbD j then 0x31#8 else 0x30#8)
      ∧ txtChar (render a) j = (if (rev64 a).getLsbD j then 0x31#8 else 0x30#8)

/-- For every x, RENDER completes with a txt that Parse turns back into x, so two different words have two different
renderings. Where every character of a string is CH0 or CH1, Parse puts bit 0 of character j in bit 63-j; elsewhere
it is not defined. (Formalises R90.) -/
def Obligations.ParseOfTheRenderingGivesTheWordBack : Prop :=
  (∀ x : Word, (txtOf (.render x)).bind parse = some x)
    ∧ (∀ x z : Word, txtOf (.render x) = txtOf (.render z) → x = z)
    ∧ (∀ t : Txt, (∀ j, j < 64 → txtChar t j = 0x30#8 ∨ txtChar t j = 0x31#8) →
        ∃ x, parse t = some x ∧ ∀ j, j < 64 → x.getLsbD (63 - j) = t.getLsbD (8 * j))
    ∧ ∀ (t : Txt) (j : Nat), j < 64 → txtChar t j ≠ 0x30#8 → txtChar t j ≠ 0x31#8 → parse t = none

/-- An index is in range exactly when b < 64, that is when bits 63:6 of b are 0; then each of the five commands does,
from every state, what it does at the index b[5:0]; when b is 64 or more each answers IndexRange, so a b whose low
six bits look legal is not taken as them. (Formalises R47.) -/
def Obligations.IndexIsTheWholeOfB : Prop :=
  (∀ b : Word, b.toNat < 64 ↔ b.extractLsb' 6 58 = 0)
    ∧ (∀ (a b : Word) (v : Byte) (s : State), b.toNat < 64 →
        (indexCommands a b v).map (fun i => exec i s)
            = (indexCommands a ((b.extractLsb' 0 6).setWidth 64) v).map (fun i => exec i s)
          ∧ ∀ i ∈ indexCommands a b v, ∃ y, exec i s = .next { s with rsp := some (.ok y 0) })
    ∧ ∀ (a b : Word) (v : Byte) (s : State), 64 ≤ b.toNat →
        ∀ i ∈ indexCommands a b v, exec i s = .next { s with rsp := some (.error .indexRange) }

/-- For every b, the amount used is b mod 64 = b[5:0]: ROR and ROL do from every state what they do at that amount, and
two amounts with the same low six bits give the same result; no amount is an error. (Formalises R48.) -/
def Obligations.AmountIsBModSixtyFour : Prop :=
  (∀ b : Word, (amount b).val = b.toNat % 64 ∧ (amount b).val = (b.extractLsb' 0 6).toNat)
    ∧ (∀ (a b c : Word) (s : State), b.extractLsb' 0 6 = c.extractLsb' 0 6 →
        exec (.ror a b) s = exec (.ror a c) s ∧ exec (.rol a b) s = exec (.rol a c) s)
    ∧ ∀ (a b : Word) (s : State),
        (∃ y, exec (.ror a b) s = .next { s with rsp := some (.ok y 0) })
          ∧ ∃ y, exec (.rol a b) s = .next { s with rsp := some (.ok y 0) }

/-- A y that GET answers has bits 63:1 equal to 0, with bit 0 the boolean; a y that CNTON or CNTOFF answers has bits
63:7 equal to 0 and is at most 64. GET at a legal index, CNTON and CNTOFF do answer one. (Formalises R50.) -/
def Obligations.ScalarResultsAreZeroExtended : Prop :=
  (∀ (a : Word) (i : Fin 64), ∃ y, yOf (.get a (idx i)) = some y ∧ y.extractLsb' 1 63 = 0
      ∧ y.getLsbD 0 = a.getLsbD i.val)
    ∧ (∀ a : Word, ∃ y, yOf (.cnton a) = some y ∧ y.extractLsb' 7 57 = 0 ∧ y.toNat = popcount a ∧ y.toNat ≤ 64)
    ∧ ∀ a : Word, ∃ y, yOf (.cntoff a) = some y ∧ y.extractLsb' 7 57 = 0 ∧ y.toNat = 64 - popcount a

/-- For every command word and every state the block completes with one response r and changes nothing but RSP: err is 2
exactly when op is 0x0E or above, whatever b is; else 1 exactly when op is 0x03 to 0x07 and b is 64 or more,
whatever v is; else 0, with a result. IndexRange is code 1, IllegalOp code 2, and code 3 never occurs. (Formalises
R42, R52, R92, R95, R96.) -/
def Obligations.ErrorCodeIsDecidedByOpcodeAndIndex : Prop :=
  (∀ (w : CommandWord) (s : State), ∃ r : Response,
      blockStep w s = .next { s with rsp := some r }
        ∧ r.err = (if 0x0E ≤ (opField w).toNat then 2#2
            else if 0x03 ≤ (opField w).toNat ∧ (opField w).toNat ≤ 0x07 ∧ 64 ≤ (bField w).toNat then 1#2 else 0#2)
        ∧ r.err ≠ 3#2
        ∧ (r.err = 0#2 ↔ ∃ y t, r = .ok y t) ∧ (r.err = 1#2 ↔ r = .error .indexRange)
        ∧ (r.err = 2#2 ↔ r = .error .illegalOp))
    ∧ ∀ b : Word, 64 ≤ b.toNat ↔ b.extractLsb' 6 58 ≠ 0

/-- For every command word and state, op 0x00 to 0x0D runs the command of the dispatch on the word's fields and any
other op raises IllegalOp; a command that completes sets err = 0, and one that is not RENDER sets txt = 0.
(Formalises R45.) -/
def Obligations.ExecDispatchesOnTheOpcode : Prop :=
  (∀ (w : CommandWord) (s : State),
      blockStep w s =
        (match (opField w).toNat with
          | 0x00 => exec .setall s
          | 0x01 => exec .rstall s
          | 0x02 => exec (.raw (aField w)) s
          | 0x03 => exec (.seton (aField w) (bField w)) s
          | 0x04 => exec (.setoff (aField w) (bField w)) s
          | 0x05 => exec (.set (aField w) (bField w) (vField w)) s
          | 0x06 => exec (.get (aField w) (bField w)) s
          | 0x07 => exec (.flip (aField w) (bField w)) s
          | 0x08 => exec (.cnton (aField w)) s
          | 0x09 => exec (.cntoff (aField w)) s
          | 0x0A => exec (.mirror (aField w)) s
          | 0x0B => exec (.ror (aField w) (bField w)) s
          | 0x0C => exec (.rol (aField w) (bField w)) s
          | 0x0D => exec (.render (aField w)) s
          | _ => .next { s with rsp := some (.error .illegalOp) }))
    ∧ ∀ (i : Instr) (s : State), ∃ r : Response,
        exec i s = .next { s with rsp := some r }
          ∧ (r.err = 0#2 ∨ r = .error .indexRange)
          ∧ ∀ y t, r = .ok y t → i.mnemonic ≠ .render → t = 0

/-- A response with err = 0 has exactly one 578-bit word, with y, txt and 0 in their places; a response with an error is
carried by every word whose bits 577:576 are its code, and by no other, whatever the other 576 bits are. In a result
y is 0 for RENDER, whose txt holds the two characters at bits 8j+7:8j, and txt is 0 for every other command.
(Formalises R41.) -/
def Obligations.ResponseWordLayout : Prop :=
  (∀ (y : Word) (t : Txt) (z : ResponseWord),
      (Response.ok y t).Carries z ↔ (Response.ok y t).word? = some z)
    ∧ (∀ (y : Word) (t : Txt), ∃ z, (Response.ok y t).word? = some z ∧ z.extractLsb' 0 64 = y
        ∧ z.extractLsb' 64 512 = t ∧ z.extractLsb' 576 2 = 0)
    ∧ (∀ (e : Err) (rest : BitVec 576), (Response.error e).Carries (e.code ++ rest))
    ∧ (∀ (e : Err) (z : ResponseWord), (Response.error e).Carries z → z.extractLsb' 576 2 = e.code)
    ∧ ∀ (i : Instr) (y : Word) (t : Txt), replyOf i = some (.ok y t) →
        (i.mnemonic = .render → y = 0 ∧ ∀ j, j < 64 → txtChar t j = Config.ch0 ∨ txtChar t j = Config.ch1)
          ∧ (i.mnemonic ≠ .render → t = 0)

/-- RAW(x).y = x for every x; SETALL.y is the complement of RSTALL.y; every command accepts every word as its a operand
(at a legal index it answers a result); CNTON of SETALL.y is 64 and of RSTALL.y is 0. (Formalises R60.) -/
def Obligations.ConstructorLaws : Prop :=
  (∀ x : Word, yOf (.raw x) = some x)
    ∧ (∃ p q, yOf .setall = some p ∧ yOf .rstall = some q ∧ p = ~~~q
        ∧ yOf (.cnton p) = some 64#64 ∧ yOf (.cnton q) = some 0#64)
    ∧ ∀ (m : Mnemonic) (c b : Word) (v : Byte), b.toNat < 64 → ∃ y t, replyOf (m.instr c b v) = some (.ok y t)

/-- For every a, every index i, every other index j and every v: GET after SETOFF of all ones is 0 at i and 1 at j; GET
after SETON is 1 at i, after SETOFF 0, after FLIP the complement, and after each of the three GET at j is as before;
FLIP twice gives a back; SETON and SETOFF are idempotent; SET is SETON or SETOFF by v; the count after SETON is the
count plus 1 minus the bit, and FLIP changes the count by exactly 1; for b of 64 or more each of the five answers
IndexRange with no result. (Formalises R67.) -/
def Obligations.SingleBitLaws : Prop :=
  (∀ i j : Fin 64, j ≠ i → ∃ c, yOf (.setoff 0xFFFFFFFFFFFFFFFF#64 (idx i)) = some c
      ∧ yOf (.get c (idx i)) = some 0#64 ∧ yOf (.get c (idx j)) = some 1#64)
    ∧ (∀ (a : Word) (i j : Fin 64), j ≠ i → ∃ c d f g,
        yOf (.seton a (idx i)) = some c ∧ yOf (.setoff a (idx i)) = some d ∧ yOf (.flip a (idx i)) = some f
          ∧ yOf (.get a (idx i)) = some g
          ∧ yOf (.get c (idx i)) = some 1#64 ∧ yOf (.get d (idx i)) = some 0#64 ∧ yOf (.get f (idx i)) = some (1#64 - g)
          ∧ yOf (.get c (idx j)) = yOf (.get a (idx j)) ∧ yOf (.get d (idx j)) = yOf (.get a (idx j))
          ∧ yOf (.get f (idx j)) = yOf (.get a (idx j))
          ∧ yOf (.flip f (idx i)) = some a ∧ yOf (.seton c (idx i)) = some c ∧ yOf (.setoff d (idx i)) = some d
          ∧ ∃ n k l, yOf (.cnton a) = some n ∧ yOf (.cnton c) = some k ∧ yOf (.cnton f) = some l
              ∧ k = n + 1#64 - g ∧ (l.toNat = n.toNat + 1 ∨ n.toNat = l.toNat + 1))
    ∧ (∀ (a : Word) (i : Fin 64) (v : Byte),
        yOf (.set a (idx i) v) = (if v ≠ 0#8 then yOf (.seton a (idx i)) else yOf (.setoff a (idx i))))
    ∧ ∀ (a b : Word) (v : Byte), 64 ≤ b.toNat →
        ∀ i ∈ indexCommands a b v, replyOf i = some (.error .indexRange) ∧ yOf i = none ∧ txtOf i = none

/-- For every x: CNTON(x).y + CNTOFF(x).y = 64, each at most 64; CNTON(x).y is 0 exactly for 0 and 64 exactly for all
ones; MIRROR, ROR and ROL by any amount keep the count; and for v below 256 and k below 56 the count of v shifted
left by k is the count of v. (Formalises R73.) -/
def Obligations.PopulationCountLaws : Prop :=
  (∀ x : Word, ∃ n f, yOf (.cnton x) = some n ∧ yOf (.cntoff x) = some f ∧ n.toNat + f.toNat = 64
      ∧ (n = 0#64 ↔ x = 0#64) ∧ (n = 64#64 ↔ x = 0xFFFFFFFFFFFFFFFF#64))
    ∧ (∀ x k : Word,
        (∃ m, yOf (.mirror x) = some m ∧ yOf (.cnton m) = yOf (.cnton x))
          ∧ (∃ m, yOf (.ror x k) = some m ∧ yOf (.cnton m) = yOf (.cnton x))
          ∧ ∃ m, yOf (.rol x k) = some m ∧ yOf (.cnton m) = yOf (.cnton x))
    ∧ ∀ v k : Nat, v < 256 → k < 56 →
        yOf (.cnton (BitVec.ofNat 64 v <<< k)) = some (BitVec.ofNat 64 (popcount (BitVec.ofNat 64 v)))

/-- For every x and z, every index i and every amount k: MIRROR twice gives x back; GET at i after MIRROR is GET at
63-i; the count is kept; MIRROR commutes with and, or, exclusive or and complement; MIRROR of a right rotation is
the left rotation of the mirror; character j of RENDER is the character 1 exactly when bit j of the mirror is 1.
(Formalises R78.) -/
def Obligations.MirrorLaws : Prop :=
  (∀ x : Word, (yOf (.mirror x)).bind (fun m => yOf (.mirror m)) = some x)
    ∧ (∀ (x : Word) (i : Fin 64), ∃ m, yOf (.mirror x) = some m
        ∧ yOf (.get m (idx i)) = yOf (.get x (idx ⟨63 - i.val, by omega⟩)) ∧ yOf (.cnton m) = yOf (.cnton x))
    ∧ (∀ x z : Word, ∃ p q, yOf (.mirror x) = some p ∧ yOf (.mirror z) = some q
        ∧ yOf (.mirror (x &&& z)) = some (p &&& q) ∧ yOf (.mirror (x ||| z)) = some (p ||| q)
        ∧ yOf (.mirror (x ^^^ z)) = some (p ^^^ q) ∧ yOf (.mirror (~~~x)) = some (~~~p))
    ∧ (∀ x k : Word, ∃ p q y, yOf (.ror x k) = some p ∧ yOf (.mirror x) = some q
        ∧ yOf (.mirror p) = some y ∧ yOf (.rol q k) = some y)
    ∧ ∀ (x : Word) (j : Nat), j < 64 → ∃ m t, yOf (.mirror x) = some m ∧ txtOf (.render x) = some t
        ∧ (txtChar t j = 0x31#8 ↔ m.getLsbD j = true)

/-- For every x and all amounts k and m: ROR and ROL by k undo each other; both are periodic with period 64 and the
identity at every multiple of 64; rotations compose by adding reduced amounts, and by the wrapping 64-bit sum; ROL
by k is ROR by 64 - (k mod 64); at 32 the two agree; the count is kept; GET at i after ROR is GET at (i + k) mod 64.
(Formalises R85.) -/
def Obligations.RotationLaws : Prop :=
  (∀ x k : Word,
      (yOf (.rol x k)).bind (fun y => yOf (.ror y k)) = some x
        ∧ (yOf (.ror x k)).bind (fun y => yOf (.rol y k)) = some x
        ∧ yOf (.ror x k) = yOf (.ror x (k % 64#64)) ∧ yOf (.rol x k) = yOf (.rol x (k % 64#64))
        ∧ (k.toNat % 64 = 0 → yOf (.ror x k) = some x ∧ yOf (.rol x k) = some x)
        ∧ yOf (.rol x k) = yOf (.ror x (64#64 - k % 64#64))
        ∧ yOf (.ror x 32#64) = yOf (.rol x 32#64))
    ∧ (∀ x k m : Word, ∃ p y, yOf (.ror x k) = some p ∧ yOf (.ror p m) = some y
        ∧ yOf (.ror x (k % 64#64 + m % 64#64)) = some y ∧ yOf (.ror x (k + m)) = some y)
    ∧ ∀ (x k : Word) (i : Fin 64), ∃ p, yOf (.ror x k) = some p ∧ yOf (.cnton p) = yOf (.cnton x)
        ∧ yOf (.get p (idx i)) = yOf (.get x (idx ⟨(i.val + k.toNat) % 64, Nat.mod_lt _ (by decide)⟩))

/-- For every command word there is one response that the block gives it from every state, whatever earlier commands,
responses or pending lines the state holds; nothing but RSP changes. For every instruction that takes no index the
response is a result for every operand; for the five that take one it is a result for every a when the index is 0 to
63 and an error otherwise. (Formalises R10.) -/
def Obligations.ResponseDependsOnTheCommandAlone : Prop :=
  (∀ w : CommandWord, ∃ r : Response, answer w = some r
      ∧ ∀ s s' : State, blockStep w s = .next { s with rsp := some r } ∧ blockStep w s' = .next { s' with rsp := some r })
    ∧ ∀ (m : Mnemonic) (a b : Word) (v : Byte),
        (∃ y t, replyOf (m.instr a b v) = some (.ok y t))
          ↔ (m ∈ [Mnemonic.seton, .setoff, .set, .get, .flip] → b.toNat < 64)

/-- For every two instructions and every state: each completes and changes nothing but RSP; giving the first again gives
the same response; the second gives the same response after the first as without it. (Formalises R31.) -/
def Obligations.CommandsHaveNoSideEffect : Prop :=
  ∀ (i j : Instr) (s : State), ∃ p q : Response,
    exec i s = .next { s with rsp := some p } ∧ exec j s = .next { s with rsp := some q }
      ∧ exec i { s with rsp := some p } = .next { s with rsp := some p }
      ∧ exec j { s with rsp := some p } = .next { s with rsp := some q }
      ∧ exec i { s with rsp := some q } = .next { s with rsp := some p }

/-- A literal word that comes first is what is presented, the lines behind it being left. Where a presented word decodes
to i, exec of i at the state in which the word is on CMD and its line is sent answers a next state that differs in
RSP alone, and the step answers that state with the exchange added at the end of the record. (Derived from
10_state.md R19, 10_state.md R22, 70_reset_and_hazards.md R112.) -/
def Obligations.StepRunsThePresentedCommand : Prop :=
  (∀ (s : State) (w : CommandWord) (ls : List Line), s.pending = .word w :: ls → fetch s = .next ⟨w, none, ls⟩)
    ∧ ∀ (s : State) (f : Sent) (i : Instr), fetch s = .next f → decodeWord f.word = .ok i →
        ∃ r, exec i { s with cmd := some f.word, pending := f.rest }
              = .next { s with cmd := some f.word, pending := f.rest, rsp := some r }
          ∧ step s
              = .next { cmd := some f.word, rsp := some r, pending := f.rest, log := s.log ++ [⟨f.word, r, f.script⟩] }

/-- Where the presented word has a reserved opcode, the step answers a next state whose RSP holds IllegalOp, with the
exchange recorded and the lines behind it in their turn. That the error is a next state with no result, and not a
stop, is the model's reading, log 2. (Derived from 60_exceptions.md R93, 60_exceptions.md R98.) -/
def Obligations.StepOnAReservedWordGoesOn : Prop :=
  ∀ (s : State) (f : Sent), fetch s = .next f → 0x0E ≤ (opField f.word).toNat →
    step s
      = .next { cmd := some f.word, rsp := some (.error .illegalOp), pending := f.rest,
                log := s.log ++ [⟨f.word, .error .illegalOp, f.script⟩] }

/-- For every state and every row word of at most 144 bits that the decoder reads as i, the step after placing it
answers exec of i with the lines that were there still to be sent. That a program is loaded so is the model's
choice, log 7. (Derived from 10_state.md R18, 30_encoding.md R43.) -/
def Obligations.FetchWordIsTheNextCommand : Prop :=
  ∀ (s : State) (nbits w : Nat) (i : Instr), nbits ≤ 144 → decodeTableWord nbits w = some i →
    ∃ c r, decodeWord c = .ok i
      ∧ exec i { s with cmd := some c } = .next { s with cmd := some c, rsp := some r }
      ∧ step (s.withFetchWord nbits w)
          = .next { cmd := some c, rsp := some r, pending := s.pending, log := s.log ++ [⟨c, r, none⟩] }

/-- From every state, whatever RSP and the record hold, a step on a literal command word that comes first completes with
the block's answer to that word. Once a response in a script's own record carries an error, no step sends a line of
that script or records anything for it; where its lines are the only ones left, the step sends nothing and stops
with the number and the error of its first failed line. That the stop is the host's fault, and comes when nothing
else is left to send, is the model's form, log 6. (Derived from 60_exceptions.md R98, 30_encoding.md R55.) -/
def Obligations.ErrorsAreNotSticky : Prop :=
  (∀ (s : State) (w : CommandWord) (ls : List Line), s.pending = .word w :: ls →
      ∃ t r, step s = .next t ∧ answer w = some r ∧ t.rsp = some r ∧ t.pending = ls ∧ t.log = s.log ++ [⟨w, r, none⟩])
    ∧ ∀ (s : State) (k : Nat) (before after : List Exchange) (x : Exchange) (e : Err),
        scriptLog k s.log = before ++ x :: after → (∀ z ∈ before, z.rsp.isOk = true) → x.rsp = .error e →
          (∀ t, step s = .next t →
              scriptLog k t.log = scriptLog k s.log ∧ scriptLines k t.pending = scriptLines k s.pending)
            ∧ (s.pending ≠ [] → (∀ l ∈ s.pending, l.script? = some k) →
                step s = .fault (.scriptStopped k (before.length + 1) e))

/-- Where no response in the script's own record carries an error, every operand has a value and the values fit their
fields, the step presents the canonical word of the command on those values, completes with the block's answer and
records it for that script. A literal is its own value; %m, %m.txt and %m.err are the y, txt and err of the response
to line m of the script, and a response with an error gives an err alone. That scripts in one list are told apart by
a number is the model's form, log 6. (Derived from 30_encoding.md R55, 30_encoding.md R53.) -/
def Obligations.ScriptLineSendsItsCommand : Prop :=
  (∀ (s : State) (k : Nat) (m : Mnemonic) (ops : List Operand) (ls : List Line) (vals : List Nat),
      s.pending = .script k ⟨m, ops⟩ :: ls → s.noErrorRecorded k →
      ops.mapM (operandValue (scriptLog k s.log)) = some vals →
      vals.length = m.operands.length → (∀ p ∈ m.operands.zip vals, p.2 < 2 ^ p.1.width) →
      ∃ w r, w = encode (m.instr (BitVec.ofNat 64 (vals.getD 0 0)) (BitVec.ofNat 64 (vals.getD 1 0))
            (BitVec.ofNat 8 (vals.getD 2 0)))
        ∧ answer w = some r
        ∧ step s = .next { cmd := some w, rsp := some r, pending := ls, log := s.log ++ [⟨w, r, some k⟩] })
    ∧ (∀ (record : List Exchange) (n : Nat), operandValue record (.lit n) = some n)
    ∧ (∀ (record : List Exchange) (j : Nat) (w : CommandWord) (y : Word) (t : Txt) (o : Option Nat),
        record[j]? = some ⟨w, .ok y t, o⟩ → operandValue record (.ref (j + 1)) = some y.toNat
          ∧ lineTxt record (j + 1) = some t ∧ lineErr record (j + 1) = some 0#2)
    ∧ ∀ (record : List Exchange) (j : Nat) (w : CommandWord) (e : Err) (o : Option Nat),
        record[j]? = some ⟨w, .error e, o⟩ → operandValue record (.ref (j + 1)) = none
          ∧ lineTxt record (j + 1) = none ∧ lineErr record (j + 1) = some e.code

/-- Let the lines of every script be well formed under their numbers. If no response of script k carries an error, then
every %m of the next line of k refers to a response with a result; and if its v operand is no reference, the line
has a command word, a step goes on to a next state whatever stands before the line, and where the line comes first
that step sends it. A step rejects a line only for a value that does not fit. That a value which does not fit is
rejected is the model's choice, log 8; that scripts in one list are told apart by a number, and that a line which
cannot be sent is passed over, is log 6. (Derived from 60_exceptions.md R104, 30_encoding.md R55.) -/
def Obligations.WellFormedScriptLineIsAnswered : Prop :=
  (∀ (s : State) (k : Nat) (l : ScriptLine) (before after : List Line),
      s.ScriptSound → s.noErrorRecorded k → s.pending = before ++ .script k l :: after →
      (∀ z ∈ before, z.script? ≠ some k) →
        s.refsAnswered k l.operands
          ∧ ((∀ j, (Field.v, Operand.ref j) ∉ l.mnemonic.operands.zip l.operands) →
              (∃ w, lineCommand s.log (.script k l) = .next w)
                ∧ ∃ t, step s = .next t ∧ (before = [] → t.pending = after)))
    ∧ ∀ (s : State) (e : AsmError), s.ScriptSound → step s = .refused (.lineRejected e) → e = .operandTooLarge

/-- From every state whose lines are the literal words ws, the run of that many steps completes with no line left, and
the record grows by one exchange for each word, in order, each response the block's answer to its word. The run is
good, on an empty record, exactly when every word's answer is a result. (Formalises R112.) -/
def Obligations.RunAnswersEveryCommandInOrder : Prop :=
  ∀ (ws : List CommandWord) (s : State), s.pending = ws.map Line.word →
    ∃ (t : State) (rs : List Response),
      Sys2Proof.core.run ws.length s = .next t ∧ t.pending = [] ∧ ws.map answer = rs.map some
        ∧ t.log = s.log ++ List.zipWith (fun w r => ⟨w, r, none⟩) ws rs
        ∧ (s.log = [] → (goodRun t = true ↔ ∀ w ∈ ws, ∃ y x, answer w = some (.ok y x)))

/-- From every state whose lines are literal words tagged by host, in any interleaving, the run completes, the n-th
recorded response answers the n-th command, and the responses to one host's words are, in order, the block's answers
to them, whatever the other hosts' words are. (Formalises R33.) -/
def Obligations.EveryInterleavingGivesEachHostItsResponses : Prop :=
  ∀ (xs : List (Nat × CommandWord)) (s : State), s.pending = xs.map (fun p => Line.word p.2) →
    ∃ (t : State) (new : List Exchange),
      Sys2Proof.core.run xs.length s = .next t ∧ t.log = s.log ++ new ∧ new.map Exchange.cmd = xs.map Prod.snd
        ∧ (∀ (n : Nat) (x : Exchange), new[n]? = some x → answer x.cmd = some x.rsp)
        ∧ ∀ host : Nat,
            (((xs.map Prod.fst).zip new).filter (fun p => p.1 == host)).map (fun p => some p.2.rsp)
              = (xs.filter (fun p => p.1 == host)).map (fun p => answer p.2)

/-- From every state in which every recorded response is the answer to its command word and CMD and RSP hold the last
recorded exchange, every step that answers a next state leads to such a state. That the ports keep the last exchange
between steps is the model's choice, log 14. (Derived from 70_reset_and_hazards.md R112, 10_state.md R19.) -/
def Obligations.StepKeepsTheRecordSound : Prop :=
  ∀ s t : State, s.LogSound → step s = .next t → t.LogSound

/-- From every state in which the lines of every script still to be sent are well formed, numbered on from that script's
recorded lines, every step that answers a next state leads to such a state. It sends exactly one line, leaves the
others in their order, and records exactly one exchange, for the script of that line. That scripts in one list are
told apart by a number is the model's form, log 6. (Derived from 30_encoding.md R55, 10_state.md R24.) -/
def Obligations.StepKeepsTheScriptSound : Prop :=
  ∀ s t : State, s.ScriptSound → step s = .next t →
    t.ScriptSound ∧ ∃ before l after x, s.pending = before ++ l :: after ∧ t.pending = before ++ after
      ∧ t.log = s.log ++ [x] ∧ x.script = l.script?

/-- The reset state has no command, no response, no line and no exchange, meets both invariants, and its step is refused
because no command is presented. The four values and the refusal are the model's choices, log 4 and 5. (Derived from
10_state.md R21, 70_reset_and_hazards.md R105.) -/
def Obligations.ResetHoldsNothingAndIsSound : Prop :=
  State.reset = { cmd := none, rsp := none, pending := [], log := [] }
    ∧ State.reset.LogSound ∧ State.reset.ScriptSound ∧ step State.reset = .refused .noCommandPresented

/-- For every command word and every state whose next line is that word, the step from reset with that word loaded and
the step from that state both complete, and RSP holds in both the block's answer to that word. That a program is
loaded from outside by State.load is the model's choice, log 7. (Derived from 70_reset_and_hazards.md R106.) -/
def Obligations.FirstCommandIsAnsweredLikeAnyOther : Prop :=
  ∀ (w : CommandWord) (s : State) (ls : List Line), s.pending = .word w :: ls →
    ∃ t u r, answer w = some r ∧ step (State.reset.load [.word w]) = .next t ∧ step s = .next u ∧ t.rsp = some r ∧ u.rsp = some r

/-- For every mnemonic and list of values: the assembler answers an instruction exactly when there is one value for each
operand the command uses and each fits its field; the word is canonical, with the values in their fields and 0
elsewhere; an index is not checked. (Derived from 30_encoding.md R53, 30_encoding.md R46.) -/
def Obligations.AssemblerAcceptsExactlyTheFittingOperands : Prop :=
  ∀ (m : Mnemonic) (vals : List Nat),
    ((∃ i, assembleValues m vals = .ok i)
        ↔ vals.length = m.operands.length ∧ ∀ p ∈ m.operands.zip vals, p.2 < 2 ^ p.1.width)
      ∧ ∀ i, assembleValues m vals = .ok i →
          i.mnemonic = m ∧ CommandWord.canonical (encode i) = true
            ∧ (aField (encode i)).toNat = vals.getD 0 0 ∧ (bField (encode i)).toNat = vals.getD 1 0
            ∧ (vField (encode i)).toNat = vals.getD 2 0

/-- For every instruction, with every operand at every value, the assembler reads the line that stands for it (mnemonic
in capitals, operands as 0x literals separated by commas) as that instruction. How the line is laid out (blanks,
digits, letter case) is the model's choice within the rule, log 10. (Derived from 30_encoding.md R53, 30_encoding.md
R54.) -/
def Obligations.AssemblerReadsEveryCommandBack : Prop :=
  ∀ i : Instr, assembleText (instrText i) = .ok i

/-- A result is carried by exactly the 73 bytes that are the 8 little-endian bytes of y, the 64 of txt and a last byte
whose bits 1:0 are 0; the model writes that byte as 0. An error is carried by exactly the 73 bytes whose last has
the error's code in bits 1:0, whatever the others are, and has no bytes of its own. That the six bits above err are
written 0 and not looked at is the model's choice, log 15. (Derived from 20_memory.md R28, 30_encoding.md R41,
60_exceptions.md R94.) -/
def Obligations.ResponseBytesCarryTheFields : Prop :=
  (∀ (y : Word) (t : Txt),
      (Response.ok y t).bytes? = some (bytesOfNat 8 y.toNat ++ bytesOfNat 64 t.toNat ++ [0#8])
        ∧ ∀ bs : List Byte, (Response.ok y t).CarriesBytes bs ↔
            ∃ c : Byte, c.extractLsb' 0 2 = 0#2 ∧ bs = bytesOfNat 8 y.toNat ++ bytesOfNat 64 t.toNat ++ [c])
    ∧ ∀ e : Err, (Response.error e).bytes? = none
        ∧ ∀ bs : List Byte, (Response.error e).CarriesBytes bs ↔
            ∃ (rest : List Byte) (c : Byte), rest.length = 72 ∧ c.extractLsb' 0 2 = e.code ∧ bs = rest ++ [c]

/-- For every state and every part of its list (a script, or the literal words): a step either leaves that part's lines
and record as they were, or does what a step does in the state that holds that part alone, with the same command,
response and record. Where the part alone has a step to a next state, so has the whole, whatever errors the others
have met. The same command word gets the same response in any two states. That scripts in one list are told apart by
a number is the model's form, log 6, and that one list holds the lines of all hosts is log 13. (Derived from
10_state.md R24, 70_reset_and_hazards.md R114, 30_encoding.md R55.) -/
def Obligations.ScriptsAndHostsShareNothing : Prop :=
  (∀ (s t : State) (o : Option Nat), step s = .next t →
      ((t.only o).pending = (s.only o).pending ∧ (t.only o).log = (s.only o).log) ∨ step (s.only o) = .next (t.only o))
    ∧ (∀ (s u : State) (o : Option Nat), step (s.only o) = .next u → ∃ t, step s = .next t)
    ∧ ∀ w : CommandWord, ∃ r : Response, ∀ s : State, blockStep w s = .next { s with rsp := some r }
end

