-- ==== Sys2Proof/Laws/Bits.lean ====
section
/-! SUPPORT. The bit of each shared vector operation: shifts, masks, vectors from their bits, bytes. -/

namespace Sys2Proof.Machine

theorem natOfBits_lt (f : Nat → Bool) (n : Nat) : natOfBits f n < 2 ^ n := by
  induction n with
  | zero => simp [natOfBits]
  | succ n ih => unfold natOfBits; split <;> omega

theorem testBit_natOfBits (f : Nat → Bool) (n i : Nat) :
    (natOfBits f n).testBit i = (decide (i < n) && f i) := by
  induction n with
  | zero => simp [natOfBits]
  | succ n ih =>
    have hlt := natOfBits_lt f n
    have hset : ∀ b : Bool, natOfBits f n + (if b then 2 ^ n else 0) = 2 ^ n * b.toNat + natOfBits f n := by
      intro b; cases b <;> simp [Nat.add_comm]
    unfold natOfBits
    rw [hset, Nat.testBit_two_pow_mul_add _ hlt]
    by_cases h : i < n
    · simp [h, ih, Nat.lt_succ_of_lt h]
    · rcases Nat.lt_or_eq_of_le (Nat.le_of_not_lt h) with h' | h'
      · have hne : i - n ≠ 0 := by omega
        have hge : ¬ i < n + 1 := by omega
        have hone : Nat.testBit 1 (i - n) = false := by
          rw [← Nat.pow_zero 2, Nat.testBit_two_pow]; simpa using hne.symm
        cases f n <;> simp [h, hge, hone]
      · subst h'; cases f n <;> simp

/-- Bit `i` of `ofBits n f` is `f i`. -/
@[simp] theorem getLsbD_ofBits (n : Nat) (f : Nat → Bool) (i : Nat) :
    (ofBits n f).getLsbD i = (decide (i < n) && f i) := by
  simp only [ofBits, BitVec.getLsbD_ofNat, testBit_natOfBits]
  by_cases h : i < n <;> simp [h]

/-- Bit `i` of `x << n` (R8). -/
@[simp] theorem getLsbD_shl (x : Word) (n : Fin 64) (i : Nat) :
    (shl x n).getLsbD i = (decide (i < 64) && !decide (i < n.val) && x.getLsbD (i - n.val)) := by
  simp [shl, BitVec.getLsbD_shiftLeft]

/-- Bit `i` of `x >> n` (R8). -/
@[simp] theorem getLsbD_shr (x : Word) (n : Fin 64) (i : Nat) :
    (shr x n).getLsbD i = x.getLsbD (n.val + i) := by
  simp [shr, BitVec.getLsbD_ushiftRight]

/-- The one-bit mask has bit `i` alone (R61). -/
@[simp] theorem getLsbD_oneHot (i : Fin 64) (j : Nat) :
    (oneHot i).getLsbD j = decide (j = i.val) := by
  have hi := i.isLt
  rw [oneHot, getLsbD_shl]
  by_cases h : j = i.val
  · simp [h]
  · by_cases h2 : j < i.val
    · simp [h2, h]
    · have h3 : j - i.val ≠ 0 := by omega
      simp [h, h2, h3]

/-- Bit `j` of SETON's result (R61). -/
theorem getLsbD_bitOn (a : Word) (i : Fin 64) (j : Nat) :
    (bitOn a i).getLsbD j = (a.getLsbD j || decide (j = i.val)) := by
  simp [bitOn]

/-- Bit `j` of SETOFF's result (R62). -/
theorem getLsbD_bitOff (a : Word) (i : Fin 64) (j : Nat) :
    (bitOff a i).getLsbD j = (a.getLsbD j && !decide (j = i.val)) := by
  rw [bitOff, BitVec.getLsbD_and, BitVec.getLsbD_not, getLsbD_oneHot]
  by_cases h : j < 64
  · simp [h]
  · simp [h, BitVec.getLsbD_of_ge a j (Nat.le_of_not_lt h)]

/-- Bit `i` of a butterfly stage: from the right block shifted up, or from the left block shifted down (R76). -/
theorem getLsbD_swapBlocks (w : Fin 64) (r l x : Word) (i : Nat) :
    (swapBlocks w r l x).getLsbD i
      = ((decide (i < 64) && !decide (i < w.val) && (x.getLsbD (i - w.val) && r.getLsbD (i - w.val)))
          || (x.getLsbD (w.val + i) && l.getLsbD (w.val + i))) := by
  simp only [swapBlocks, BitVec.getLsbD_or, getLsbD_shl, getLsbD_shr, BitVec.getLsbD_and]

/-- Bit `k` of the rendering is bit `k mod 8` of character `k / 8` (R87). -/
theorem getLsbD_render (a : Word) (k : Nat) :
    (render a).getLsbD k = (decide (k < 512) && (bitChar (a.getLsbD (63 - k / 8))).getLsbD (k % 8)) := by
  simp only [render, getLsbD_ofBits]

/-- The value test looks at all eight bits (R49). -/
theorem valueNonzero_eq (v : Byte) : valueNonzero v = decide (v ≠ 0#8) := by
  by_cases h : v = 0#8 <;> simp [valueNonzero, h]

/-- A good index is the value of `b`; a bad one is none, and never wraps (R47). -/
theorem bitIndex_of_lt {b : Word} (h : b.toNat < 64) : bitIndex b = some ⟨b.toNat, h⟩ := by
  simp [bitIndex, h]

theorem bitIndex_of_ge {b : Word} (h : 64 ≤ b.toNat) : bitIndex b = none := by
  simp [bitIndex, Nat.not_lt.mpr h]

@[simp] theorem amount_val (b : Word) : (amount b).val = b.toNat % 64 := rfl

/-- At a reduced amount of 0 the rotator passes its operand (R81). -/
theorem rotateRight_zero (a : Word) {s : Fin 64} (h : s.val = 0) : rotateRight a s = a := by
  simp [rotateRight, h]

/-- Away from 0 the rotator is the spec's two shifts (R80). -/
theorem rotateRight_shifts (a : Word) {s : Fin 64} (h : s.val ≠ 0) :
    rotateRight a s = (a >>> s.val ||| a <<< (64 - s.val)) := by
  simp [rotateRight, h, shr, shl]

theorem bytesOfNat_length (k n : Nat) : (bytesOfNat k n).length = k := by
  induction k generalizing n with
  | zero => rfl
  | succ k ih => simp [bytesOfNat, ih]

/-- Little-endian bytes of a number below `256^k` give the number back (R28). -/
theorem natOfBytes_bytesOfNat (k n : Nat) (h : n < 256 ^ k) : natOfBytes (bytesOfNat k n) = n := by
  induction k generalizing n with
  | zero => simp [bytesOfNat, natOfBytes]; omega
  | succ k ih =>
    have : n / 256 < 256 ^ k := by
      rw [Nat.div_lt_iff_lt_mul (by decide)]; rw [Nat.pow_succ] at h; exact h
    simp only [bytesOfNat, natOfBytes, ih _ this, BitVec.toNat_ofNat]
    omega

/-- Byte `j` of the bytes of a number (R28). -/
theorem getElem?_bytesOfNat {k j : Nat} (n : Nat) (h : j < k) :
    (bytesOfNat k n)[j]? = some (BitVec.ofNat 8 (n / 256 ^ j)) := by
  induction k generalizing n j with
  | zero => omega
  | succ k ih =>
    cases j with
    | zero => simp [bytesOfNat]
    | succ j => simp [bytesOfNat, ih _ (Nat.lt_of_succ_lt_succ h), Nat.div_div_eq_div_mul, Nat.pow_succ, Nat.mul_comm]

/-- Bit `k` of byte `j` of a number is its bit `8j+k` (R28). -/
theorem getLsbD_byte (n j : Nat) {k : Nat} (hk : k < 8) :
    (BitVec.ofNat 8 (n / 256 ^ j)).getLsbD k = n.testBit (8 * j + k) := by
  rw [BitVec.getLsbD_ofNat, show (256 : Nat) = 2 ^ 8 from rfl, ← Nat.pow_mul, Nat.testBit_div_two_pow]
  simp [hk, Nat.add_comm]

theorem natOfBytes_lt (bs : List Byte) : natOfBytes bs < 256 ^ bs.length := by
  induction bs with
  | nil => simp [natOfBytes]
  | cons b bs ih =>
    have := b.isLt
    simp only [natOfBytes, List.length_cons, Nat.pow_succ]
    omega

/-- The bytes of the number that `bs` spells are `bs` (R28). -/
theorem bytesOfNat_natOfBytes (bs : List Byte) : bytesOfNat bs.length (natOfBytes bs) = bs := by
  induction bs with
  | nil => rfl
  | cons b bs ih =>
    have hb := b.isLt
    have hdiv : (b.toNat + 256 * natOfBytes bs) / 256 = natOfBytes bs := by omega
    have hmod : BitVec.ofNat 8 (b.toNat + 256 * natOfBytes bs) = b := by
      apply BitVec.eq_of_toNat_eq
      rw [BitVec.toNat_ofNat]
      omega
    simp only [List.length_cons, bytesOfNat, natOfBytes, hdiv, hmod, ih]

/-- A word comes back from its bytes, where there are enough of them (R28). -/
theorem ofNat_natOfBytes_bytesOfNat {n k : Nat} (x : BitVec n) (h : n ≤ 8 * k) :
    BitVec.ofNat n (natOfBytes (bytesOfNat k x.toNat)) = x := by
  have hlt := Nat.lt_of_lt_of_le x.isLt (Nat.pow_le_pow_right Nat.two_pos h)
  rw [Nat.pow_mul] at hlt
  rw [natOfBytes_bytesOfNat _ _ hlt, BitVec.ofNat_toNat, BitVec.setWidth_eq]

/-- A command word comes back from its bytes (R28). -/
@[simp] theorem commandOfBytes_bytesOfCommand (w : CommandWord) : commandOfBytes (bytesOfCommand w) = w :=
  ofNat_natOfBytes_bytesOfNat w (by decide)

/-- A response word comes back from its bytes (R28). -/
@[simp] theorem responseOfBytes_bytesOfResponse (z : ResponseWord) : responseOfBytes (bytesOfResponse z) = z :=
  ofNat_natOfBytes_bytesOfNat z (by decide)

/-- Bit `8n+k` of the response word that bytes carry is bit `k` of byte `n` (R28). -/
theorem getLsbD_responseOfBytes {bs : List Byte} {n k : Nat} {c : Byte} (hc : bs[n]? = some c) (hk : k < 8)
    (hz : 8 * n + k < 578) : (responseOfBytes bs).getLsbD (8 * n + k) = c.getLsbD k := by
  have hn : n < bs.length := (List.getElem?_eq_some_iff.mp hc).1
  have h := getElem?_bytesOfNat (natOfBytes bs) hn
  rw [bytesOfNat_natOfBytes, hc, Option.some.injEq] at h
  rw [responseOfBytes, BitVec.getLsbD_ofNat, h, getLsbD_byte _ _ hk]
  simp [hz]

end Sys2Proof.Machine
end

