-- ==== Sys2Proof/Laws/State.lean ====
section
/-! SUPPORT. What each update of the state does to each field. -/

namespace Sys2Proof.Machine

@[simp] theorem State.drive_cmd (s : State) (r : Response) : (s.drive r).cmd = s.cmd := rfl
@[simp] theorem State.drive_rsp (s : State) (r : Response) : (s.drive r).rsp = some r := rfl
@[simp] theorem State.drive_pending (s : State) (r : Response) : (s.drive r).pending = s.pending := rfl
@[simp] theorem State.drive_log (s : State) (r : Response) : (s.drive r).log = s.log := rfl
@[simp] theorem State.drive_drive (s : State) (r q : Response) : (s.drive q).drive r = s.drive r := rfl

@[simp] theorem State.present_cmd (s : State) (f : Sent) : (s.present f).cmd = some f.word := rfl
@[simp] theorem State.present_rsp (s : State) (f : Sent) : (s.present f).rsp = s.rsp := rfl
@[simp] theorem State.present_pending (s : State) (f : Sent) : (s.present f).pending = f.rest := rfl
@[simp] theorem State.present_log (s : State) (f : Sent) : (s.present f).log = s.log := rfl

@[simp] theorem State.load_cmd (s : State) (ls : List Line) : (s.load ls).cmd = s.cmd := rfl
@[simp] theorem State.load_rsp (s : State) (ls : List Line) : (s.load ls).rsp = s.rsp := rfl
@[simp] theorem State.load_pending (s : State) (ls : List Line) : (s.load ls).pending = s.pending ++ ls := rfl
@[simp] theorem State.load_log (s : State) (ls : List Line) : (s.load ls).log = s.log := rfl

@[simp] theorem State.withFetchWord_cmd (s : State) (n w : Nat) : (s.withFetchWord n w).cmd = s.cmd := rfl
@[simp] theorem State.withFetchWord_rsp (s : State) (n w : Nat) : (s.withFetchWord n w).rsp = s.rsp := rfl
@[simp] theorem State.withFetchWord_pending (s : State) (n w : Nat) :
    (s.withFetchWord n w).pending = .word (BitVec.ofNat 144 (w % 2 ^ n)) :: s.pending := rfl
@[simp] theorem State.withFetchWord_log (s : State) (n w : Nat) : (s.withFetchWord n w).log = s.log := rfl

/-- Recording after a response to the command on CMD has been driven adds one exchange at the end of the log. -/
theorem State.drive_record {s : State} {w : CommandWord} (h : s.cmd = some w) (r : Response) (o : Option Nat) :
    (s.drive r).record o = { s with rsp := some r, log := s.log ++ [⟨w, r, o⟩] } := by
  simp [State.record, State.drive, h]

@[simp] theorem State.record_cmd (s : State) (o : Option Nat) : (s.record o).cmd = s.cmd := by
  unfold State.record; split <;> simp_all
@[simp] theorem State.record_rsp (s : State) (o : Option Nat) : (s.record o).rsp = s.rsp := by
  unfold State.record; split <;> simp_all
@[simp] theorem State.record_pending (s : State) (o : Option Nat) : (s.record o).pending = s.pending := by
  unfold State.record; split <;> rfl

@[simp] theorem State.reset_cmd : State.reset.cmd = none := rfl
@[simp] theorem State.reset_rsp : State.reset.rsp = none := rfl
@[simp] theorem State.reset_pending : State.reset.pending = [] := rfl
@[simp] theorem State.reset_log : State.reset.log = [] := rfl

end Sys2Proof.Machine
end

