-- ==== Sys2Proof/Laws/Exec.lean ====
section
/-! SUPPORT. Everything each shared operation, the dispatch, the block and a step can do, said once. -/

namespace Sys2Proof.Machine

/-- `withIndex` at a good index goes on with that index. -/
theorem withIndex_of_lt {b : Word} (h : b.toNat < 64)
    (k : Fin 64 → State → Host.Outcome State Fault Refusal) (s : State) :
    withIndex b k s = k ⟨b.toNat, h⟩ s := by
  simp [withIndex, bitIndex_of_lt h]

/-- `withIndex` at a bad index raises IndexRange and computes nothing (R66). -/
theorem withIndex_of_ge {b : Word} (h : 64 ≤ b.toNat)
    (k : Fin 64 → State → Host.Outcome State Fault Refusal) (s : State) :
    withIndex b k s = raise .indexRange s := by
  simp [withIndex, bitIndex_of_ge h]

/-- An index command whose body responds drives one response, the same from every state. -/
theorem withIndex_drives (b : Word) (f : Fin 64 → Word) :
    ∃ r, ∀ s, withIndex b (fun i => respond (f i)) s = .next (s.drive r) := by
  by_cases h : b.toNat < 64
  · exact ⟨_, fun s => withIndex_of_lt h _ s⟩
  · exact ⟨_, fun s => withIndex_of_ge (Nat.le_of_not_lt h) _ s⟩

/-- Every command drives one response and changes nothing else, whatever the state (R31). -/
theorem exec_drives (i : Instr) : ∃ r, ∀ s, exec i s = .next (s.drive r) := by
  cases i with
  | seton a b => exact withIndex_drives b _
  | setoff a b => exact withIndex_drives b _
  | set a b v => exact withIndex_drives b _
  | get a b => exact withIndex_drives b _
  | flip a b => exact withIndex_drives b _
  | _ => exact ⟨_, fun _ => rfl⟩

/-- A command word with a defined opcode runs its command. -/
theorem blockStep_of_ok {w : CommandWord} {i : Instr} (h : decodeWord w = .ok i) (s : State) :
    blockStep w s = exec i s := by
  simp [blockStep, h]

/-- A command word with a reserved opcode raises IllegalOp. -/
theorem blockStep_of_error {w : CommandWord} {e : DecodeError} (h : decodeWord w = .error e) (s : State) :
    blockStep w s = .next (s.drive (.error .illegalOp)) := by
  simp [blockStep, h, raise]

/-- Every command word is answered by one response, the same from every state, and nothing but RSP changes (R10). -/
theorem blockStep_drives (w : CommandWord) : ∃ r, ∀ s, blockStep w s = .next (s.drive r) := by
  cases h : decodeWord w with
  | ok i => obtain ⟨r, hr⟩ := exec_drives i; exact ⟨r, fun s => by rw [blockStep_of_ok h, hr]⟩
  | error e => exact ⟨_, fun s => blockStep_of_error h s⟩

/-- That response is `answer w` (R22). -/
theorem blockStep_answer (w : CommandWord) : ∃ r, answer w = some r ∧ ∀ s, blockStep w s = .next (s.drive r) := by
  obtain ⟨r, h⟩ := blockStep_drives w
  exact ⟨r, by simp [answer, h], h⟩

/-- The block at its port answers the word just presented. -/
theorem blockOnPort_present (s : State) (f : Sent) : blockOnPort (s.present f) = blockStep f.word (s.present f) := rfl

/-- Whatever is fetched is presented, answered by the block and recorded. -/
theorem step_of_fetch {s : State} {f : Sent} (h : fetch s = .next f) :
    ∃ r, answer f.word = some r
      ∧ step s = .next { cmd := some f.word, rsp := some r, pending := f.rest, log := s.log ++ [⟨f.word, r, f.script⟩] } := by
  obtain ⟨r, ha, hb⟩ := blockStep_answer f.word
  refine ⟨r, ha, ?_⟩
  simp only [step, h, blockOnPort_present, hb, State.drive_record (State.present_cmd s f)]
  rfl

/-- A step that answers a next state did that, and nothing else: all a step can do. -/
theorem step_next {s t : State} (h : step s = .next t) :
    ∃ f r, fetch s = .next f ∧ answer f.word = some r
      ∧ t = { cmd := some f.word, rsp := some r, pending := f.rest, log := s.log ++ [⟨f.word, r, f.script⟩] } := by
  cases hf : fetch s with
  | next f =>
    obtain ⟨r, ha, hs⟩ := step_of_fetch hf
    exact ⟨f, r, rfl, ha, by rw [hs] at h; cases h; rfl⟩
  | fault e => simp [step, hf] at h
  | refused e => simp [step, hf] at h

/-- A step whose next line is a literal word presents it. -/
theorem fetch_word {s : State} {w : CommandWord} {ls : List Line} (h : s.pending = .word w :: ls) :
    fetch s = .next ⟨w, none, ls⟩ := by
  simp [fetch, fetchFrom, h, heldBy, Line.script?, lineCommand]

end Sys2Proof.Machine
end

