-- ==== Sys2Proof/Laws/HostSide.lean ====
section
/-! SUPPORT. What the host's side of a step can do, said once (30_encoding.md R53, R55). -/

namespace Sys2Proof.Machine

/-- No recorded error means that every recorded response is a result. -/
theorem rsp_ok_of_firstError_none {n : Nat} {log : List Exchange} (h : firstError n log = none) :
    ∀ x ∈ log, ∃ y t, x.rsp = .ok y t := by
  induction log generalizing n with
  | nil => simp
  | cons z zs ih =>
    unfold firstError at h
    split at h
    · next y t hz =>
      intro x hx
      rcases List.mem_cons.mp hx with rfl | hx
      · exact ⟨y, t, hz⟩
      · exact ih h x hx
    · cases h

@[simp] theorem operandValue_lit (record : List Exchange) (n : Nat) : operandValue record (.lit n) = some n := rfl

/-- A reference to a line with a result has the `y` of that result. -/
theorem operandValue_ref {log : List Exchange} {k : Nat} {x : Exchange} {y : Word} {t : Txt}
    (hx : log[k]? = some x) (hr : x.rsp = .ok y t) : operandValue log (.ref (k + 1)) = some y.toNat := by
  simp [operandValue, lineY, lineResponse, hx, hr, Response.y?]

/-- Values of the right count that fit their fields are assembled (R53). -/
theorem assembleValues_of_fits {m : Mnemonic} {vals : List Nat} (hl : vals.length = m.operands.length)
    (hf : ∀ p ∈ m.operands.zip vals, p.2 < 2 ^ p.1.width) :
    assembleValues m vals = .ok (m.instr (BitVec.ofNat 64 (vals.getD 0 0)) (BitVec.ofNat 64 (vals.getD 1 0))
      (BitVec.ofNat 8 (vals.getD 2 0))) := by
  unfold assembleValues
  rw [if_neg (by simp [hl]), if_pos (by simpa using fun f n => hf (f, n))]

/-- No line is held where no script is. -/
@[simp] theorem heldBy_nil (l : Line) : heldBy [] l = false := by
  unfold heldBy; split <;> rfl

/-- A script line at the head is sent when nothing in its script has failed and its command can be built. -/
theorem fetch_script {s : State} {k : Nat} {l : ScriptLine} {ls : List Line} {i : Instr}
    (hp : s.pending = .script k l :: ls) (hn : s.recordedError k = none)
    (hb : buildScript (scriptLog k s.log) l = .ok i) : fetch s = .next ⟨encode i, some k, ls⟩ := by
  have hn' : firstError 1 (scriptLog k s.log) = none := hn
  simp [fetch, fetchFrom, hp, lineCommand, hn', hb, Line.script?]

/-- A line of a script with a recorded error has no command (R55). -/
theorem lineCommand_stopped {log : List Exchange} {k n : Nat} {e : Err}
    (h : firstError 1 (scriptLog k log) = some (n, e)) (l : ScriptLine) :
    lineCommand log (.script k l) = .fault (.scriptStopped k n e) := by
  simp [lineCommand, h]

/-- Only the script's own record decides what its line sends (R24). -/
theorem lineCommand_congr {log log' : List Exchange} {k : Nat} (h : scriptLog k log = scriptLog k log') (l : ScriptLine) :
    lineCommand log (.script k l) = lineCommand log' (.script k l) := by
  simp [lineCommand, h]

@[simp] theorem scriptLog_append (k : Nat) (log log' : List Exchange) :
    scriptLog k (log ++ log') = scriptLog k log ++ scriptLog k log' := List.filter_append ..

theorem keepLine_next {l : Line} {out : Host.Outcome Sent Fault Refusal} {f : Sent} (h : keepLine l out = .next f) :
    ∃ g, out = .next g ∧ f = { g with rest := l :: g.rest } := by
  cases out with
  | next g => exact ⟨g, rfl, by cases h; rfl⟩
  | fault e => cases h
  | refused r => cases h

theorem sentOr_next {reason out : Host.Outcome Sent Fault Refusal} {f : Sent} (hr : ∀ g, reason ≠ .next g)
    (h : sentOr reason out = .next f) : out = .next f := by
  cases out with
  | next g => exact h
  | fault e => exact absurd h (hr f)
  | refused r => exact absurd h (hr f)

/-- A line that is not held and has no command is of a script; what can be sent from it and the lines behind is what can
be sent from those, its script held, and it stays. -/
theorem fetchFrom_skip {log : List Exchange} {held : List Nat} {l : Line} {ls : List Line} (hl : heldBy held l = false)
    (hc : ∀ w, lineCommand log l ≠ .next w) :
    ∃ k reason, l.script? = some k ∧ (∀ g, reason ≠ .next g)
      ∧ fetchFrom log held (l :: ls) = sentOr reason (keepLine l (fetchFrom log (k :: held) ls)) := by
  cases l with
  | word w => exact absurd rfl (hc w)
  | script k l =>
    cases h : lineCommand log (.script k l) with
    | next w => exact absurd h (hc w)
    | fault e => exact ⟨k, .fault e, rfl, by simp, by simp [fetchFrom, hl, h, Line.script?]⟩
    | refused r => exact ⟨k, .refused r, rfl, by simp, by simp [fetchFrom, hl, h, Line.script?]⟩

/-- What is fetched is one of the lines, with its own command; it is in no held script, the lines before it stay, and none
of them is of its script or, where it is a literal word, a literal word (R24). -/
theorem fetchFrom_next {log : List Exchange} {held : List Nat} {ls : List Line} {f : Sent}
    (h : fetchFrom log held ls = .next f) :
    ∃ before l after, ls = before ++ l :: after ∧ f.rest = before ++ after ∧ f.script = l.script?
      ∧ lineCommand log l = .next f.word ∧ heldBy held l = false ∧ ∀ z ∈ before, z.script? ≠ l.script? := by
  induction ls generalizing held f with
  | nil => cases h
  | cons z zs ih =>
    by_cases hz : heldBy held z = true
    · rw [fetchFrom, if_pos hz] at h
      obtain ⟨g, hg, rfl⟩ := keepLine_next h
      obtain ⟨before, l, after, rfl, hr, hs, hc, hh, hb⟩ := ih hg
      refine ⟨z :: before, l, after, rfl, by simp [hr], hs, hc, hh, List.forall_mem_cons.mpr ⟨fun he => ?_, hb⟩⟩
      simp [heldBy, ← he] at hh hz
      simp_all
    · by_cases hc : ∃ w, lineCommand log z = .next w
      · obtain ⟨w, hw⟩ := hc
        rw [fetchFrom, if_neg hz, hw] at h
        cases h
        exact ⟨[], z, zs, rfl, rfl, rfl, hw, by simpa using hz, by simp⟩
      · obtain ⟨k, reason, hk, hr, he⟩ := fetchFrom_skip (ls := zs) (by simpa using hz) (fun w hw => hc ⟨w, hw⟩)
        rw [he] at h
        obtain ⟨g, hg, rfl⟩ := keepLine_next (sentOr_next hr h)
        obtain ⟨before, l, after, rfl, hr, hs, hc, hh, hb⟩ := ih hg
        refine ⟨z :: before, l, after, rfl, by simp [hr], hs, hc, ?_, List.forall_mem_cons.mpr ⟨fun he => ?_, hb⟩⟩
        · cases hl : l.script? <;> simp_all [heldBy]
        · simp [heldBy, ← he, hk] at hh

/-- What is fetched is one of the pending lines: all that `fetch` can send. -/
theorem fetch_next {s : State} {f : Sent} (h : fetch s = .next f) :
    ∃ before l after, s.pending = before ++ l :: after ∧ f.rest = before ++ after ∧ f.script = l.script?
      ∧ lineCommand s.log l = .next f.word ∧ ∀ z ∈ before, z.script? ≠ l.script? := by
  obtain ⟨before, l, after, hp, hr, hs, hc, -, hb⟩ := fetchFrom_next h
  exact ⟨before, l, after, hp, hr, hs, hc, hb⟩

/-- Where one of the lines has a command, its script is not held and the earlier lines of its script have commands too, some
line is sent, whatever the lines of other scripts are (R24). -/
theorem fetchFrom_sends {log : List Exchange} {held : List Nat} {before after : List Line} {l : Line} {w : CommandWord}
    (hc : lineCommand log l = .next w) (hh : heldBy held l = false)
    (hb : ∀ z ∈ before, z.script? = l.script? → ∃ w, lineCommand log z = .next w) :
    ∃ f, fetchFrom log held (before ++ l :: after) = .next f := by
  induction before generalizing held with
  | nil => exact ⟨_, by rw [List.nil_append, fetchFrom, if_neg (by simp [hh]), hc]⟩
  | cons z zs ih =>
    have hb' := (List.forall_mem_cons.mp hb).2
    by_cases hz : heldBy held z = true
    · obtain ⟨f, hf⟩ := ih hh hb'
      exact ⟨_, by rw [List.cons_append, fetchFrom, if_pos hz, hf]; rfl⟩
    · by_cases hw : ∃ w, lineCommand log z = .next w
      · obtain ⟨w', hw⟩ := hw
        exact ⟨_, by rw [List.cons_append, fetchFrom, if_neg hz, hw]⟩
      · obtain ⟨k, reason, hk, hr, he⟩ := fetchFrom_skip (ls := zs ++ l :: after) (by simpa using hz) (fun w h => hw ⟨w, h⟩)
        have hne : l.script? ≠ some k := fun h =>
          hw ((List.forall_mem_cons.mp hb).1 (hk.trans h.symm))
        obtain ⟨f, hf⟩ := ih (held := k :: held) (by cases hl : l.script? <;> simp_all [heldBy]) hb'
        exact ⟨_, by rw [List.cons_append, he, hf]; rfl⟩

/-- What `fetch` answers where some line is left: a line to send, or the reason why the first line is not sent (R55). -/
theorem fetch_of_cons {s : State} {l : Line} {ls : List Line} (hp : s.pending = l :: ls) :
    (∃ f, fetch s = .next f) ∨ (∃ e, lineCommand s.log l = .fault e ∧ fetch s = .fault e)
      ∨ ∃ r, lineCommand s.log l = .refused r ∧ fetch s = .refused r := by
  simp only [fetch, hp, fetchFrom, heldBy_nil, Bool.false_eq_true, if_false]
  cases lineCommand s.log l with
  | next w => exact .inl ⟨_, rfl⟩
  | fault e =>
    cases fetchFrom s.log (l.script?.toList ++ []) ls with
    | next f => exact .inl ⟨_, rfl⟩
    | fault _ => exact .inr (.inl ⟨e, rfl, rfl⟩)
    | refused _ => exact .inr (.inl ⟨e, rfl, rfl⟩)
  | refused r =>
    cases fetchFrom s.log (l.script?.toList ++ []) ls with
    | next f => exact .inl ⟨_, rfl⟩
    | fault _ => exact .inr (.inr ⟨r, rfl, rfl⟩)
    | refused _ => exact .inr (.inr ⟨r, rfl, rfl⟩)

/-- What cannot be fetched stops the step with the same reason. -/
theorem step_of_fetch_fault {s : State} {e : Fault} (h : fetch s = .fault e) : step s = .fault e := by
  simp [step, h]

theorem step_of_fetch_refused {s : State} {r : Refusal} (h : fetch s = .refused r) : step s = .refused r := by
  simp [step, h]

@[simp] theorem scriptLines_append (k : Nat) (ls ls' : List Line) :
    scriptLines k (ls ++ ls') = scriptLines k ls ++ scriptLines k ls' := by
  induction ls with
  | nil => rfl
  | cons l ls ih =>
    cases l with
    | word w => exact ih
    | script j l => by_cases h : j = k <;> simp [scriptLines, h, ih]

/-- A line of another script, or a literal word, is none of script `k`'s. -/
theorem scriptLines_cons_of_ne {k : Nat} {l : Line} (h : l.script? ≠ some k) (ls : List Line) :
    scriptLines k (l :: ls) = scriptLines k ls := by
  cases l with
  | word w => rfl
  | script j l => simp only [Line.script?, ne_eq, Option.some.injEq] at h; simp [scriptLines, h]

theorem scriptLines_of_forall_ne {k : Nat} {ls : List Line} (h : ∀ z ∈ ls, z.script? ≠ some k) : scriptLines k ls = [] := by
  induction ls with
  | nil => rfl
  | cons l ls ih =>
    obtain ⟨hl, hls⟩ := List.forall_mem_cons.mp h
    rw [scriptLines_cons_of_ne hl, ih hls]

end Sys2Proof.Machine
end

