-- ==== Sys2Proof/Laws/PerInstr.lean ====
section
/-! SUPPORT. Per instruction: the four fields of its encoding (30_encoding.md R38, R44, R46). -/

namespace Sys2Proof

theorem opField_assembleFields (op v : Byte) (b a : Word) : opField (assembleFields op v b a) = op := by
  apply BitVec.eq_of_getLsbD_eq
  intro i hi
  simp only [opField, assembleFields, BitVec.getLsbD_extractLsb', BitVec.getLsbD_append]
  have h1 : ¬ 136 + i < 64 := by omega
  have h2 : ¬ 136 + i - 64 < 64 := by omega
  have h3 : ¬ 136 + i - 64 - 64 < 8 := by omega
  have h4 : 136 + i - 64 - 64 - 8 = i := by omega
  simp [hi, h1, h2, h3, h4]

theorem vField_assembleFields (op v : Byte) (b a : Word) : vField (assembleFields op v b a) = v := by
  apply BitVec.eq_of_getLsbD_eq
  intro i hi
  simp only [vField, assembleFields, BitVec.getLsbD_extractLsb', BitVec.getLsbD_append]
  have h1 : ¬ 128 + i < 64 := by omega
  have h2 : ¬ 128 + i - 64 < 64 := by omega
  have h3 : 128 + i - 64 - 64 < 8 := by omega
  have h4 : 128 + i - 64 - 64 = i := by omega
  simp [hi, h1, h2, h4]

theorem bField_assembleFields (op v : Byte) (b a : Word) : bField (assembleFields op v b a) = b := by
  apply BitVec.eq_of_getLsbD_eq
  intro i hi
  simp only [bField, assembleFields, BitVec.getLsbD_extractLsb', BitVec.getLsbD_append]
  have h1 : ¬ 64 + i < 64 := by omega
  have h2 : 64 + i - 64 < 64 := by omega
  have h3 : 64 + i - 64 = i := by omega
  simp [hi, h3]

theorem aField_assembleFields (op v : Byte) (b a : Word) : aField (assembleFields op v b a) = a := by
  apply BitVec.eq_of_getLsbD_eq
  intro i hi
  simp only [aField, assembleFields, BitVec.getLsbD_extractLsb', BitVec.getLsbD_append]
  simp [hi]

end Sys2Proof

namespace Sys2Proof.Laws

/-- The encoding of an instruction has its opcode and its operands in the four fields, 0 in the unused ones. -/
def EncodeFields.Statement (i : Instr) : Prop :=
  opField (encode i) = i.mnemonic.opcode ∧ vField (encode i) = i.vOperand
    ∧ bField (encode i) = i.bOperand ∧ aField (encode i) = i.aOperand

/-- The fields of any encoding, once. -/
theorem EncodeFields.all (i : Instr) : EncodeFields.Statement i :=
  ⟨opField_assembleFields _ _ _ _, vField_assembleFields _ _ _ _, bField_assembleFields _ _ _ _,
    aField_assembleFields _ _ _ _⟩

theorem EncodeFields.setall : EncodeFields.Statement .setall := EncodeFields.all _
theorem EncodeFields.rstall : EncodeFields.Statement .rstall := EncodeFields.all _
theorem EncodeFields.raw (a : Word) : EncodeFields.Statement (.raw a) := EncodeFields.all _
theorem EncodeFields.seton (a b : Word) : EncodeFields.Statement (.seton a b) := EncodeFields.all _
theorem EncodeFields.setoff (a b : Word) : EncodeFields.Statement (.setoff a b) := EncodeFields.all _
theorem EncodeFields.set (a b : Word) (v : Byte) : EncodeFields.Statement (.set a b v) := EncodeFields.all _
theorem EncodeFields.get (a b : Word) : EncodeFields.Statement (.get a b) := EncodeFields.all _
theorem EncodeFields.flip (a b : Word) : EncodeFields.Statement (.flip a b) := EncodeFields.all _
theorem EncodeFields.cnton (a : Word) : EncodeFields.Statement (.cnton a) := EncodeFields.all _
theorem EncodeFields.cntoff (a : Word) : EncodeFields.Statement (.cntoff a) := EncodeFields.all _
theorem EncodeFields.mirror (a : Word) : EncodeFields.Statement (.mirror a) := EncodeFields.all _
theorem EncodeFields.ror (a b : Word) : EncodeFields.Statement (.ror a b) := EncodeFields.all _
theorem EncodeFields.rol (a b : Word) : EncodeFields.Statement (.rol a b) := EncodeFields.all _
theorem EncodeFields.render (a : Word) : EncodeFields.Statement (.render a) := EncodeFields.all _

end Sys2Proof.Laws
end

