-- ==== Sys2Proof/Tests/Slice0.lean ====
section
/-! SUPPORT. Tests. Every word decoded or sent by a test and every value expected of it is printed in spec/
(95_test_vectors.md unless a comment says otherwise), but for the words of test_decode_bits and of the well-formedness
checks, written out by hand from R38 and R44; the witnesses show, for each statement that has hypotheses, a state and operands that meet them. -/

namespace Sys2Proof.Tests

open Sys2Proof Sys2Proof.Machine

/-- The response to one literal command word sent right after reset. -/
def responseTo (w : CommandWord) : Option Response :=
  match step (State.reset.load [.word w]) with
  | .next t => t.rsp
  | .fault _ => none
  | .refused _ => none

/-- `y` of that response, none where there is none. -/
def resultOf (w : CommandWord) : Option Word := (responseTo w).bind Response.y?

/-- `err` of that response. -/
def errorOf (w : CommandWord) : Option (BitVec 2) := (responseTo w).map Response.err

/-- The host with these lines to send and these exchanges recorded. -/
def hostWith (ls : List Line) (log : List Exchange) : State := { State.reset with pending := ls, log := log }

/-! ### Decoding: the words of 95_test_vectors.md, one a command -/

theorem test_decode_setall : decodeWord 0x00aaffffffffffffffffdeadbeefdeadbeef#144 = .ok .setall := by decide
theorem test_decode_rstall : decodeWord 0x01aaffffffffffffffffdeadbeefdeadbeef#144 = .ok .rstall := by decide
theorem test_decode_raw : decodeWord 0x02ffffffffffffffffff0123456789abcdef#144 = .ok (.raw 0x0123456789abcdef#64) := by
  decide
theorem test_decode_seton :
    decodeWord 0x030000000000000000400123456789abcdef#144 = .ok (.seton 0x0123456789abcdef#64 0x40#64) := by decide
theorem test_decode_setoff :
    decodeWord 0x0400000000000000003fffffffffffffffff#144 = .ok (.setoff 0xffffffffffffffff#64 63#64) := by decide
theorem test_decode_set :
    decodeWord 0x0580000000000000003f0000000000000001#144 = .ok (.set 1#64 63#64 0x80#8) := by decide
theorem test_decode_get :
    decodeWord 0x06008000000000000000ffffffffffffffff#144
      = .ok (.get 0xffffffffffffffff#64 0x8000000000000000#64) := by decide
theorem test_decode_flip :
    decodeWord 0x070000000000000000200123456789abcdef#144 = .ok (.flip 0x0123456789abcdef#64 32#64) := by decide
theorem test_decode_cnton :
    decodeWord 0x08ffffffffffffffffff00000000000000ff#144 = .ok (.cnton 0xff#64) := by decide
theorem test_decode_cntoff :
    decodeWord 0x090000000000000000007fffffffffffffff#144 = .ok (.cntoff 0x7fffffffffffffff#64) := by decide
theorem test_decode_mirror :
    decodeWord 0x0a000000000000000000deadbeefcafef00d#144 = .ok (.mirror 0xdeadbeefcafef00d#64) := by decide
theorem test_decode_ror :
    decodeWord 0x0b0000000000000000450000000000000020#144 = .ok (.ror 0x20#64 69#64) := by decide
theorem test_decode_rol :
    decodeWord 0x0c0000000000000000460123456789abcdef#144 = .ok (.rol 0x0123456789abcdef#64 70#64) := by decide
theorem test_decode_render :
    decodeWord 0x0d000000000000000000f7b3d591e6a2c480#144 = .ok (.render 0xf7b3d591e6a2c480#64) := by decide
theorem test_decode_reserved :
    decodeWord 0x0e0000000000000000400000000000000000#144 = .error (.reservedOpcode 0x0e#8)
      ∧ decodeWord 0xffffffffffffffffffffffffffffffffffff#144 = .error (.reservedOpcode 0xff#8) := by decide

/-- Words written bit by bit from the column "encoding" of the opcode table, the operand of each a power of two: the
opcode bits, then v, b, a (R38). One a family. -/
theorem test_decode_bits :
    decodeWord ((0b00000010#8 : BitVec 8) ++ (0b00000000#8 : BitVec 8) ++ (0#64 : Word) ++ (0b1000#64 : Word))
        = .ok (.raw 8#64)
      ∧ decodeWord ((0b00000101#8 : BitVec 8) ++ (0b10000000#8 : BitVec 8) ++ (0b100#64 : Word) ++ (0b10#64 : Word))
        = .ok (.set 2#64 4#64 128#8)
      ∧ decodeWord ((0b00001001#8 : BitVec 8) ++ (0b00000000#8 : BitVec 8) ++ (0#64 : Word) ++ (0b10000#64 : Word))
        = .ok (.cntoff 16#64)
      ∧ decodeWord ((0b00001010#8 : BitVec 8) ++ (0b00000000#8 : BitVec 8) ++ (0#64 : Word) ++ (0b1#64 : Word))
        = .ok (.mirror 1#64)
      ∧ decodeWord ((0b00001100#8 : BitVec 8) ++ (0b00000000#8 : BitVec 8) ++ (0b1000000#64 : Word) ++ (0b10#64 : Word))
        = .ok (.rol 2#64 64#64)
      ∧ decodeWord ((0b00001101#8 : BitVec 8) ++ (0b00000000#8 : BitVec 8) ++ (0#64 : Word) ++ (0b1#64 : Word))
        = .ok (.render 1#64) := by decide

/-- The byte decoder takes 18 bytes, op last (the bytes are printed in R39), leaves the rest, and refuses fewer. -/
theorem test_decode_bytes :
    decode [0, 0, 0, 0, 0, 0, 0, 0, 5, 0, 0, 0, 0, 0, 0, 0, 0, 3, 7, 9] = .ok (.seton 0#64 5#64, [7, 9])
      ∧ decode [0, 0, 0, 0, 0, 0, 0, 0, 5, 0, 0, 0, 0, 0, 0, 0, 0] = .error .tooShort := by decide
/-- No two rows of the opcode table select the same word (R43, R44). -/
theorem test_rows_disjoint : opcodeTable.Pairwise (fun r q => r.matchValue ≠ q.matchValue) := by decide
theorem test_table_word : decodeTableWord 144 0x0b0000000000000000450000000000000020 = some (.ror 0x20#64 69#64)
    ∧ decodeTableWord 144 0x0e0000000000000000000000000000000000 = none := by decide
/-- A rendering over bytes: character 0 is byte 8, character 63 is byte 71 (R28, R41). The txt is that of RENDER 1 in 2.6. -/
theorem test_response_bytes :
    ((Response.ok 0x0123456789abcdef#64
        0x31303030303030303030303030303030303030303030303030303030303030303030303030303030303030303030303030303030303030303030303030303030#512).bytes?.map
      fun bs => (bs.take 8, bs[8]?, bs[71]?, bs.drop 72))
      = some ([0xef, 0xcd, 0xab, 0x89, 0x67, 0x45, 0x23, 0x01], some 0x30#8, some 0x31#8, [0#8]) := by decide +kernel
/-- The spelling printed in R39. -/
theorem test_spelling :
    spellCommand (encode (.seton 0#64 5#64)) = "0x030000000000000000050000000000000000".toList := by decide

/-! ### Well-formedness: each check refuses an ill-formed term -/

theorem test_canonical_accepts : CommandWord.canonical 0x0580000000000000003f0000000000000001#144 = true := by decide
theorem test_canonical_refuses_reserved : CommandWord.canonical 0x0e0000000000000000000000000000000000#144 = false := by
  decide
theorem test_canonical_refuses_a : CommandWord.canonical 0x000000000000000000000000000000000001#144 = false := by decide
theorem test_canonical_refuses_b : CommandWord.canonical 0x0a0000000000000000010000000000000001#144 = false := by decide
theorem test_canonical_refuses_v : CommandWord.canonical 0x030100000000000000010000000000000001#144 = false := by decide
theorem test_line_accepts : ScriptLine.wellFormed 2 ⟨.set, [.ref 1, .lit 8, .lit 255]⟩ = true := by decide
theorem test_line_refuses_count : ScriptLine.wellFormed 2 ⟨.set, [.ref 1, .lit 8]⟩ = false := by decide
theorem test_line_refuses_width : ScriptLine.wellFormed 2 ⟨.set, [.ref 1, .lit 8, .lit 256]⟩ = false := by decide
theorem test_line_refuses_forward : ScriptLine.wellFormed 2 ⟨.raw, [.ref 2]⟩ = false
    ∧ ScriptLine.wellFormed 2 ⟨.raw, [.ref 0]⟩ = false := by decide
theorem test_script_refuses : scriptWellFormed 1 [⟨.setall, []⟩, ⟨.raw, [.ref 2]⟩] = false := by decide

/-! ### Meanings: at most two a command, one step each -/

theorem test_setall : resultOf 0x00aaffffffffffffffffdeadbeefdeadbeef#144 = some 0xffffffffffffffff#64 := by
  decide
theorem test_rstall : resultOf 0x01aaffffffffffffffffdeadbeefdeadbeef#144 = some 0#64 := by decide
theorem test_raw : resultOf 0x02ffffffffffffffffff0123456789abcdef#144 = some 0x0123456789abcdef#64 := by decide
theorem test_seton_last : resultOf 0x0300000000000000003f0123456789abcdef#144 = some 0x8123456789abcdef#64 := by
  decide
theorem test_seton_no_wrap : errorOf 0x030000000001000000000000000000000000#144 = some 1#2 := by decide
theorem test_setoff_last : resultOf 0x0400000000000000003fffffffffffffffff#144 = some 0x7fffffffffffffff#64 := by
  decide
theorem test_setoff_first_bad : errorOf 0x040000000000000000400123456789abcdef#144 = some 1#2 := by
  decide
theorem test_set_value_80 : resultOf 0x058000000000000000080000000000000000#144 = some 0x100#64 := by decide
theorem test_set_value_0 : resultOf 0x05000000000000000008ffffffffffffffff#144 = some 0xfffffffffffffeff#64
    ∧ errorOf 0x050000000000000000400123456789abcdef#144 = some 1#2 := by decide
theorem test_get_top : resultOf 0x0600000000000000003f8000000000000000#144 = some 1#64
    ∧ resultOf 0x0600000000000000003e8000000000000000#144 = some 0#64 := by decide
theorem test_get_bad : errorOf 0x06008000000000000000ffffffffffffffff#144 = some 1#2 := by decide
theorem test_flip : resultOf 0x070000000000000000200123456789abcdef#144 = some 0x0123456689abcdef#64 := by
  decide
theorem test_flip_bad : errorOf 0x0700ffffffffffffffff0000000000000000#144 = some 1#2 := by decide
theorem test_cnton_full : resultOf 0x08000000000000000000ffffffffffffffff#144 = some 0x40#64 := by decide
theorem test_cnton_mixed : resultOf 0x080000000000000000000123456789abcdef#144 = some 0x20#64 := by decide
theorem test_cntoff_zero : resultOf 0x090000000000000000000000000000000000#144 = some 0x40#64 := by decide
theorem test_cntoff_full : resultOf 0x09000000000000000000ffffffffffffffff#144 = some 0#64 := by decide
theorem test_mirror : resultOf 0x0a0000000000000000000123456789abcdef#144 = some 0xf7b3d591e6a2c480#64 := by
  decide
theorem test_mirror_other : resultOf 0x0a000000000000000000deadbeefcafef00d#144 = some 0xb00f7f53f77db57b#64 := by
  decide
theorem test_ror_70 : resultOf 0x0b0000000000000000460123456789abcdef#144 = some 0xbc048d159e26af37#64 := by
  decide
theorem test_ror_64 : resultOf 0x0b0000000000000000400123456789abcdef#144 = some 0x0123456789abcdef#64 := by
  decide
theorem test_rol_70 : resultOf 0x0c0000000000000000460123456789abcdef#144 = some 0x48d159e26af37bc0#64 := by
  decide
theorem test_rol_max : resultOf 0x0c00ffffffffffffffff0123456789abcdef#144 = some 0x8091a2b3c4d5e6f7#64 := by
  decide
theorem test_render_one :
    responseTo 0x0d0000000000000000000000000000000001#144 = some (.ok 0
      0x31303030303030303030303030303030303030303030303030303030303030303030303030303030303030303030303030303030303030303030303030303030#512) := by
  decide +kernel
theorem test_render_mixed :
    responseTo 0x0d0000000000000000000123456789abcdef#144 = some (.ok 0
      0x31313131303131313130313130303131313130313031303131303031303030313131313030313130313031303030313031313030303130303130303030303030#512) := by
  decide +kernel
theorem test_reserved_before_index : errorOf 0x0e0000000000000000400000000000000000#144 = some 2#2 := by
  decide

/-- The worked trace of R74. -/
theorem test_swar_trace :
    swarT1 0x0123456789abcdef#64 = 0x011245564556899a#64 ∧ swarT2 0x0123456789abcdef#64 = 0x0112122312232334#64
      ∧ swarT3 0x0123456789abcdef#64 = 0x0103030503050507#64 ∧ swarT4 0x0123456789abcdef#64 = 0x0104060808080a0c#64
      ∧ swarT5 0x0123456789abcdef#64 = 0x0104070c0e101214#64 ∧ swarT6 0x0123456789abcdef#64 = 0x0104070c0f141920#64 := by
  decide

/-- The worked trace of R79: the stages one after the other. -/
theorem test_butterfly_trace :
    swapBlocks 32 0x00000000FFFFFFFF#64 0xFFFFFFFF00000000#64 0x0123456789abcdef#64 = 0x89abcdef01234567#64
      ∧ swapBlocks 8 0x00FF00FF00FF00FF#64 0xFF00FF00FF00FF00#64 0xcdef89ab45670123#64 = 0xefcdab8967452301#64
      ∧ swapBlocks 1 0x5555555555555555#64 0xAAAAAAAAAAAAAAAA#64 0xfb73ea62d951c840#64 = 0xf7b3d591e6a2c480#64 := by
  decide

/-! ### The host's side: scripts and the assembler -/

/-- The line printed in R53: an index is not checked by the assembler. -/
theorem test_assemble_index : assembleText "SETON 0x0, 64".toList = .ok (.seton 0#64 64#64) := by decide
/-- Underscores, a comment, capitals (R53). -/
theorem test_assemble_underscore :
    assembleText "RAW 0xFFFF_FFFF_FFFF_FFFF # all ones".toList = .ok (.raw 0xffffffffffffffff#64) := by decide
theorem test_assemble_refuses :
    assembleText "SET 0x0, 0, 256".toList = .error .operandTooLarge ∧ assembleText "SETON 0x0".toList = .error .operandCount
      ∧ assembleText "seton 0x0, 1".toList = .error .unknownMnemonic
      ∧ assembleText "RAW %1".toList = .error .badReference ∧ assembleText "RAW -1".toList = .error .badOperand := by decide
/-- Line 3 of the program P1. -/
theorem test_read_script_line :
    readScriptText 3 "%3 = GET %2, 17".toList = .ok ⟨.get, [.ref 2, .lit 17]⟩
      ∧ readScriptText 3 "%3 = GET %3, 17".toList = .error .badReference
      ∧ readScriptText 3 "%2 = GET %2, 17".toList = .error .badNumber := by decide
/-- Line 2 of P1 as script 1: the host sends the word printed there. -/
theorem test_script_substitutes :
    fetch (hostWith [.script 1 ⟨.setoff, [.ref 1, .lit 17]⟩] [⟨0#144, .ok 0xffffffffffffffff#64 0, some 1⟩])
      = .next ⟨0x04000000000000000011ffffffffffffffff#144, some 1, []⟩ := rfl
/-- The record after lines 1 and 2 of P5, as script 1. -/
def afterP5Line2 : List Exchange :=
  [⟨0#144, .ok 0xffffffffffffffff#64 0, some 1⟩, ⟨0x04000000000000000040ffffffffffffffff#144, .error .indexRange, some 1⟩]
/-- Line 4 of P5: not sent, although it does not use the failed line. -/
theorem test_script_stops :
    step (hostWith [.script 1 ⟨.get, [.ref 1, .lit 0]⟩] afterP5Line2) = .fault (.scriptStopped 1 2 .indexRange) := rfl
/-- Lines 3 and 4 of P5 stay behind, while row 2 of P6 and line 1 of P1, as script 2, are sent past them (R24, R98). -/
theorem test_others_go_on :
    fetch (hostWith ([.script 1 ⟨.cnton, [.ref 2]⟩, .script 1 ⟨.get, [.ref 1, .lit 0]⟩]
          ++ [.word 0x030000000000000000050000000000000000#144]) afterP5Line2)
        = .next ⟨0x030000000000000000050000000000000000#144, none,
            [.script 1 ⟨.cnton, [.ref 2]⟩, .script 1 ⟨.get, [.ref 1, .lit 0]⟩]⟩
      ∧ fetch (hostWith [.script 1 ⟨.cnton, [.ref 2]⟩, .script 2 ⟨.setall, []⟩] afterP5Line2)
        = .next ⟨0x000000000000000000000000000000000000#144, some 2, [.script 1 ⟨.cnton, [.ref 2]⟩]⟩ := ⟨rfl, rfl⟩
/-- Row 2 of P6: a literal word is answered after an error. -/
theorem test_replay_goes_on :
    (match step (hostWith [.word 0x030000000000000000050000000000000000#144]
        [⟨0x0e0000000000000000000000000000000000#144, .error .illegalOp, none⟩]) with
      | .next t => t.rsp.bind Response.y?
      | _ => none) = some 0x20#64 := by decide
theorem test_no_command : step State.reset = .refused .noCommandPresented := rfl

/-! ### Witnesses: the hypotheses of each statement that has some can be met, at the ends of their ranges -/

theorem witness_CanonicalWordsHaveOneMeaning :
    CommandWord.canonical 0x0dff00000000000000000000000000000001#144 = false
      ∧ CommandWord.canonical 0x0d0000000000000000000000000000000001#144 = true := by decide
theorem witness_DecodingLooksAtOpOnly :
    (⟨.render, 0x0d0000000000000000000000000000000000#144⟩ : OpcodeRow) ∈ opcodeTable
      ∧ opField 0x0dff00000000000000000000000000000001#144 = opField 0x0d0000000000000000000000000000000000#144 := by decide
theorem witness_UnusedFieldsAreIgnored :
    Mnemonic.ofOpcode (opField 0x030000000000000000050000000000000000#144) = some .seton
      ∧ opField 0x03ff00000000000000050000000000000000#144 = opField 0x030000000000000000050000000000000000#144
      ∧ aField 0x03ff00000000000000050000000000000000#144 = aField 0x030000000000000000050000000000000000#144
      ∧ bField 0x03ff00000000000000050000000000000000#144 = bField 0x030000000000000000050000000000000000#144
      ∧ Field.v ∉ Mnemonic.seton.operands := by decide
theorem witness_ReservedOpcodesRaiseIllegalOp :
    0x0E ≤ (opField 0x0e0000000000000000000000000000000000#144).toNat
      ∧ 0x0E ≤ (opField 0xff0000000000000000000000000000000000#144).toNat
      ∧ (opField 0x0d0000000000000000000000000000000000#144).toNat < 0x0E := by decide
/-- The op hypotheses of the fourteen statements, one a command. -/
theorem witness_opcodes :
    opField 0x00aa00000000000000000000000000000001#144 = 0x00#8 ∧ opField 0x01aa00000000000000000000000000000001#144 = 0x01#8
      ∧ opField 0x02aa00000000000000000000000000000001#144 = 0x02#8
      ∧ opField 0x03aa00000000000000000000000000000001#144 = 0x03#8
      ∧ opField 0x04aa00000000000000000000000000000001#144 = 0x04#8
      ∧ opField 0x05aa00000000000000000000000000000001#144 = 0x05#8
      ∧ opField 0x06aa00000000000000000000000000000001#144 = 0x06#8
      ∧ opField 0x07aa00000000000000000000000000000001#144 = 0x07#8
      ∧ opField 0x08aa00000000000000000000000000000001#144 = 0x08#8
      ∧ opField 0x09aa00000000000000000000000000000001#144 = 0x09#8
      ∧ opField 0x0aaa00000000000000000000000000000001#144 = 0x0A#8
      ∧ opField 0x0baa00000000000000000000000000000001#144 = 0x0B#8
      ∧ opField 0x0caa00000000000000000000000000000001#144 = 0x0C#8
      ∧ opField 0x0daa00000000000000000000000000000001#144 = 0x0D#8 := by decide
/-- The index hypotheses of SETON, SETOFF, SET, GET, FLIP and of the statements over the five: the last good index and
the first bad one. -/
theorem witness_index : (63#64 : Word).toNat < 64 ∧ 64 ≤ (64#64 : Word).toNat
    ∧ 64 ≤ (0xFFFFFFFFFFFFFFFF#64 : Word).toNat ∧ (0 : Fin 64) ≠ 63 := by decide
theorem witness_CountCommandsRunTheTree :
    ∃ t1 t2 t3 t4 t5 t6 : Word,
      t1 = (0xFF#64 &&& 0x5555555555555555#64) + ((0xFF#64 >>> 1) &&& 0x5555555555555555#64)
        ∧ t2 = (t1 &&& 0x3333333333333333#64) + ((t1 >>> 2) &&& 0x3333333333333333#64)
        ∧ t3 = (t2 &&& 0x0f0f0f0f0f0f0f0f#64) + ((t2 >>> 4) &&& 0x0f0f0f0f0f0f0f0f#64)
        ∧ t4 = t3 + (t3 >>> 8) ∧ t5 = t4 + (t4 >>> 16) ∧ t6 = t5 + (t5 >>> 32) :=
  ⟨_, _, _, _, _, _, rfl, rfl, rfl, rfl, rfl, rfl⟩
theorem witness_ButterflyIsTheExactMirrorInAnyOrder : swapStages.reverse.Perm swapStages := List.reverse_perm _
theorem witness_AmountIsBModSixtyFour : (1#64 : Word).extractLsb' 0 6 = (65#64 : Word).extractLsb' 0 6
    ∧ (1#64 : Word) ≠ 65#64 := by decide
theorem witness_RotationLaws_identity : (128#64 : Word).toNat % 64 = 0 := by decide
theorem witness_ParseOfTheRendering :
    (∀ j, j < 64 → txtChar (render 5#64) j = 0x30#8 ∨ txtChar (render 5#64) j = 0x31#8)
      ∧ txtChar 0 63 ≠ 0x30#8 ∧ txtChar 0 63 ≠ 0x31#8 := by decide +kernel
theorem witness_ResponseWordLayout :
    (Response.ok 5#64 7#512).word? = some ((0#2 : BitVec 2) ++ (7#512 : Txt) ++ (5#64 : Word))
      ∧ replyOf (.raw 5#64) = some (.ok 5#64 0) ∧ (Response.error .indexRange).Carries ((1#2 : BitVec 2) ++ (9#576 : BitVec 576)) :=
  ⟨rfl, rfl, by
    refine ⟨by decide +kernel, ?_, ?_⟩ <;> intro x h <;> simp [Response.y?, Response.txt?] at h⟩
/-- An error over bytes, with junk in every bit that is not `err`; and a result with junk above it. -/
theorem witness_ResponseBytesCarryTheFields :
    (Response.error .indexRange).CarriesBytes (List.replicate 72 0xFF#8 ++ [0xFD#8])
      ∧ (Response.ok 0 0).CarriesBytes (List.replicate 72 0#8 ++ [0xFC#8]) := by
  refine ⟨⟨rfl, ?_, ?_, ?_⟩, ⟨rfl, ?_, ?_, ?_⟩⟩
  · decide +kernel
  · intro y h; cases h
  · intro t h; cases h
  · decide +kernel
  · intro y h; cases h; decide +kernel
  · intro t h; cases h; decide +kernel
theorem witness_StepRunsThePresentedCommand :
    (hostWith [.word 0x02000000000000000000000000000000002a#144] []).pending
        = Line.word 0x02000000000000000000000000000000002a#144 :: []
      ∧ fetch (hostWith [.word 0x02000000000000000000000000000000002a#144] [])
        = .next ⟨0x02000000000000000000000000000000002a#144, none, []⟩
      ∧ decodeWord 0x02000000000000000000000000000000002a#144 = .ok (.raw 42#64) := ⟨rfl, rfl, by decide⟩
theorem witness_StepOnAReservedWordGoesOn :
    fetch (hostWith [.word 0x0e0000000000000000000000000000000000#144] [])
        = .next ⟨0x0e0000000000000000000000000000000000#144, none, []⟩
      ∧ 0x0E ≤ (opField 0x0e0000000000000000000000000000000000#144).toNat := ⟨rfl, by decide⟩
theorem witness_FetchWordIsTheNextCommand :
    144 ≤ 144 ∧ decodeTableWord 144 0x02000000000000000000000000000000002a = some (.raw 42#64) := by decide
/-- The first clause, and the second with the only line left a line of the stopped script. -/
theorem witness_ErrorsAreNotSticky :
    (hostWith [.word 5#144] afterP5Line2).pending = Line.word 5#144 :: []
      ∧ scriptLog 1 (hostWith [.script 1 ⟨.setall, []⟩] afterP5Line2).log
          = [⟨0#144, .ok 0xffffffffffffffff#64 0, some 1⟩]
            ++ ⟨0x04000000000000000040ffffffffffffffff#144, .error .indexRange, some 1⟩ :: []
      ∧ (∀ z ∈ [(⟨0#144, .ok 0xffffffffffffffff#64 0, some 1⟩ : Exchange)], z.rsp.isOk = true)
      ∧ (hostWith [.script 1 ⟨.setall, []⟩] afterP5Line2).pending ≠ []
      ∧ (∀ l ∈ (hostWith [.script 1 ⟨.setall, []⟩] afterP5Line2).pending, l.script? = some 1) :=
  ⟨rfl, rfl, fun z hz => by simp only [List.mem_singleton] at hz; subst hz; rfl, by simp [hostWith],
    fun l hl => by simp only [hostWith, List.mem_singleton] at hl; subst hl; rfl⟩
/-- The first half of the second clause: a step while script 1 is stopped. -/
theorem witness_ErrorsAreNotSticky_step :
    ∃ t, step (hostWith [.script 1 ⟨.setall, []⟩, .word 5#144] afterP5Line2) = .next t := ⟨_, rfl⟩
/-- A host in the middle of script 1, whose line 1 was answered 7. -/
def midScript (l : ScriptLine) : State := hostWith [.script 1 l] [⟨0#144, .ok 7 0, some 1⟩]
theorem midScript_sound (l : ScriptLine) (h : l.wellFormed 2 = true) : (midScript l).ScriptSound := by
  intro k
  by_cases hk : 1 = k
  · subst hk
    simpa [midScript, hostWith, scriptLines, scriptWellFormed, scriptLog] using h
  · simp [midScript, hostWith, scriptLines, scriptWellFormed, hk]
theorem witness_ScriptLineSendsItsCommand :
    (midScript ⟨.set, [.ref 1, .lit 63, .lit 255]⟩).pending = Line.script 1 ⟨.set, [.ref 1, .lit 63, .lit 255]⟩ :: []
      ∧ (midScript ⟨.set, [.ref 1, .lit 63, .lit 255]⟩).noErrorRecorded 1
      ∧ [Operand.ref 1, .lit 63, .lit 255].mapM
          (operandValue (scriptLog 1 (midScript ⟨.set, [.ref 1, .lit 63, .lit 255]⟩).log)) = some [7, 63, 255]
      ∧ [7, 63, 255].length = Mnemonic.set.operands.length
      ∧ (∀ p ∈ Mnemonic.set.operands.zip [7, 63, 255], p.2 < 2 ^ p.1.width)
      ∧ [(⟨0#144, .ok 7 0, some 1⟩ : Exchange)][0]? = some ⟨0#144, .ok 7 0, some 1⟩ :=
  ⟨rfl, rfl, rfl, rfl, by decide, rfl⟩
/-- The error clause of the record. -/
theorem witness_ScriptLineSendsItsCommand_error :
    afterP5Line2[1]? = some ⟨0x04000000000000000040ffffffffffffffff#144, .error .indexRange, some 1⟩ := rfl
theorem witness_WellFormedScriptLineIsAnswered :
    (midScript ⟨.set, [.ref 1, .lit 63, .lit 255]⟩).ScriptSound
      ∧ (midScript ⟨.set, [.ref 1, .lit 63, .lit 255]⟩).noErrorRecorded 1
      ∧ (midScript ⟨.set, [.ref 1, .lit 63, .lit 255]⟩).pending
          = [] ++ Line.script 1 ⟨.set, [.ref 1, .lit 63, .lit 255]⟩ :: []
      ∧ (∀ z ∈ ([] : List Line), z.script? ≠ some 1)
      ∧ (∀ j, (Field.v, Operand.ref j) ∉ Mnemonic.set.operands.zip [.ref 1, .lit 63, .lit 255]) :=
  ⟨midScript_sound _ (by decide), rfl, rfl, by simp, fun j => by simp [Mnemonic.operands]⟩
/-- The second clause: a value that does not fit the v field is rejected. -/
theorem witness_WellFormedScriptLineIsAnswered_rejected :
    (hostWith [.script 1 ⟨.set, [.lit 0, .lit 0, .ref 1]⟩] [⟨0#144, .ok 256#64 0, some 1⟩]).ScriptSound
      ∧ step (hostWith [.script 1 ⟨.set, [.lit 0, .lit 0, .ref 1]⟩] [⟨0#144, .ok 256#64 0, some 1⟩])
          = .refused (.lineRejected .operandTooLarge) := by
  refine ⟨fun k => ?_, rfl⟩
  by_cases hk : 1 = k
  · subst hk; rfl
  · simp [hostWith, scriptLines, scriptWellFormed, hk]
/-- Script 2 goes on past the stopped script 1: both disjuncts of the first clause, and the second clause. -/
theorem witness_ScriptsAndHostsShareNothing :
    (∃ t, step (hostWith [.script 1 ⟨.setall, []⟩, .script 2 ⟨.setall, []⟩] afterP5Line2) = .next t)
      ∧ ∃ u, step ((hostWith [.script 1 ⟨.setall, []⟩, .script 2 ⟨.setall, []⟩] afterP5Line2).only (some 2)) = .next u :=
  ⟨⟨_, rfl⟩, ⟨_, rfl⟩⟩
theorem witness_RunAnswersEveryCommandInOrder :
    (hostWith [.word 0#144, .word 0x0e0000000000000000000000000000000000#144] []).pending
        = [0#144, 0x0e0000000000000000000000000000000000#144].map Line.word
      ∧ (hostWith [.word 0#144, .word 0x0e0000000000000000000000000000000000#144] []).log = [] := by decide
theorem witness_EveryInterleavingGivesEachHostItsResponses :
    (hostWith [.word 0#144, .word 1#144] []).pending
      = [(1, 0#144), (2, 1#144)].map (fun p : Nat × CommandWord => Line.word p.2) := by decide
/-- A state with a record that meets the invariant, with a step to a next state. -/
theorem witness_StepKeepsTheRecordSound :
    ∃ s t : State, s.LogSound ∧ s.log ≠ [] ∧ step s = .next t :=
  ⟨{ cmd := some 0#144, rsp := some (.ok 0xFFFFFFFFFFFFFFFF#64 0), pending := [.word 0#144],
      log := [⟨0#144, .ok 0xFFFFFFFFFFFFFFFF#64 0, none⟩] }, _,
    ⟨fun x hx => by simp only [List.mem_singleton] at hx; subst hx; rfl,
      fun x hx => by simp only [List.getLast?_singleton, Option.some.injEq] at hx; subst hx; exact ⟨rfl, rfl⟩⟩,
    by simp, rfl⟩
theorem witness_StepKeepsTheScriptSound :
    ∃ s t : State, s.ScriptSound ∧ step s = .next t :=
  ⟨midScript ⟨.raw, [.ref 1]⟩, _, midScript_sound _ (by decide), rfl⟩
theorem witness_FirstCommandIsAnsweredLikeAnyOther :
    (hostWith [.word 5#144] [⟨0#144, .error .illegalOp, none⟩]).pending = Line.word 5#144 :: [] := by decide
theorem witness_AssemblerAcceptsExactlyTheFittingOperands :
    assembleValues .set [0xFFFFFFFFFFFFFFFF, 64, 255] = .ok (.set 0xFFFFFFFFFFFFFFFF#64 64#64 255#8)
      ∧ assembleValues .set [0x10000000000000000, 64, 255] = .error .operandTooLarge := by decide

end Sys2Proof.Tests
end

/-! PROOFS. The family 00_scope.md: the response to a command word depends on that word alone (R10). -/

namespace Sys2Proof.Machine

/-- The reply is read off the response that `exec` drives from reset. -/
theorem replyOf_of_exec {i : Instr} {r : Response} (h : exec i State.reset = .next (State.reset.drive r)) :
    replyOf i = some r := by
  simp [replyOf, h]

/-- A command that checks an index before it responds (R66) has a result exactly at an index of 0 to 63. -/
theorem replyOf_ok_iff_of_withIndex {i : Instr} {b : Word} {f : Fin 64 → Word}
    (h : exec i State.reset = withIndex b (fun k => respond (f k)) State.reset) :
    (∃ y t, replyOf i = some (.ok y t)) ↔ b.toNat < 64 := by
  by_cases hb : b.toNat < 64
  · have hr : replyOf i = some (.ok (f ⟨b.toNat, hb⟩) 0) :=
      replyOf_of_exec (by rw [h, withIndex_of_lt hb]; rfl)
    exact iff_of_true ⟨_, _, hr⟩ hb
  · have hr : replyOf i = some (.error .indexRange) :=
      replyOf_of_exec (by rw [h, withIndex_of_ge (Nat.le_of_not_lt hb)]; rfl)
    simp [hr, hb]

/-- Only the five index commands can lack a result, and they do so only at an index of 64 or more (R66, R92). -/
theorem replyOf_instr_ok_iff (m : Mnemonic) (a b : Word) (v : Byte) :
    (∃ y t, replyOf (m.instr a b v) = some (.ok y t))
      ↔ (m ∈ [Mnemonic.seton, .setoff, .set, .get, .flip] → b.toNat < 64) := by
  cases m with
  | seton | setoff | set | get | flip =>
    exact (replyOf_ok_iff_of_withIndex rfl).trans (imp_iff_right (by decide)).symm
  | _ => exact iff_of_true ⟨_, _, replyOf_of_exec rfl⟩ (fun h => absurd h (by decide))

/-- Settles O43: `blockStep_answer` gives each word its one response from every state, `replyOf_instr_ok_iff` says when
that response is a result. -/
theorem responseDependsOnTheCommandAlone : Obligations.ResponseDependsOnTheCommandAlone := by
  refine ⟨fun w => ?_, replyOf_instr_ok_iff⟩
  obtain ⟨r, hanswer, hdrives⟩ := blockStep_answer w
  exact ⟨r, hanswer, fun s s' => ⟨hdrives s, hdrives s'⟩⟩

end Sys2Proof.Machine

/-! PROOFS. The family 10_state.md: one exchange is one step (R19, R22), and hosts and scripts share nothing (R24). -/

namespace Sys2Proof.Machine

/-! ### The exchange -/

/-- The block's answer to a command word is what `exec` of its command drives, from every state. -/
theorem exec_of_answer {w : CommandWord} {i : Instr} {r : Response} (hd : decodeWord w = .ok i)
    (ha : answer w = some r) (s : State) : exec i s = .next (s.drive r) := by
  obtain ⟨q, hq, hdrives⟩ := blockStep_answer w
  obtain rfl : q = r := Option.some.inj (hq.symm.trans ha)
  rw [← blockStep_of_ok hd, hdrives]

/-- The decoder on the 18 bytes of a command word answers that word's instruction, with no byte left over (R28, R43). -/
theorem decode_bytesOfCommand (w : CommandWord) :
    decode (bytesOfCommand w) = (decodeWord w).map (fun i => (i, [])) := by
  have hlen : (bytesOfCommand w).length = Config.commandBytes := bytesOfNat_length ..
  rw [decode, if_neg (by omega), ← hlen, List.take_length, List.drop_length, commandOfBytes_bytesOfCommand]
  cases decodeWord w <;> rfl

/-- A row word that the decoder reads as `i` is, filled up with 0 bits, a command word that decodes to `i`. -/
theorem decodeWord_of_decodeTableWord {nbits w : Nat} {i : Instr} (h : decodeTableWord nbits w = some i) :
    decodeWord (BitVec.ofNat 144 (w % 2 ^ nbits)) = .ok i := by
  rw [decodeTableWord, decode_bytesOfCommand] at h
  cases hd : decodeWord (BitVec.ofNat 144 (w % 2 ^ nbits)) with
  | ok j => rw [hd] at h; cases h; rfl
  | error e => rw [hd] at h; cases h

/-- Settles O45: `step_of_fetch` records the block's answer, `exec_of_answer` says that `exec` drives it. -/
theorem stepRunsThePresentedCommand : Obligations.StepRunsThePresentedCommand := by
  refine ⟨fun s w ls => fetch_word, fun s f i hf hd => ?_⟩
  obtain ⟨r, ha, hs⟩ := step_of_fetch hf
  exact ⟨r, exec_of_answer hd ha _, hs⟩

/-- Settles O47: the word placed comes first, so `fetch_word` presents it. -/
theorem fetchWordIsTheNextCommand : Obligations.FetchWordIsTheNextCommand := by
  intro s nbits w i _ htable
  have hd := decodeWord_of_decodeTableWord htable
  obtain ⟨r, ha, hs⟩ := step_of_fetch (fetch_word (State.withFetchWord_pending s nbits w))
  exact ⟨_, r, hd, exec_of_answer hd ha _, hs⟩

/-- Settles O55: with no exchange and no line the invariants ask for nothing, and there is nothing to fetch. -/
theorem resetHoldsNothingAndIsSound : Obligations.ResetHoldsNothingAndIsSound := by
  have hlog : State.reset.LogSound := ⟨by simp, by simp⟩
  exact ⟨rfl, hlog, fun _ => rfl, step_of_fetch_refused rfl⟩

/-! ### What one script, or the literal words, see of a step -/

@[simp] theorem State.only_cmd (s : State) (o : Option Nat) : (s.only o).cmd = s.cmd := rfl
@[simp] theorem State.only_rsp (s : State) (o : Option Nat) : (s.only o).rsp = s.rsp := rfl
@[simp] theorem State.only_pending (s : State) (o : Option Nat) :
    (s.only o).pending = s.pending.filter (fun l => l.script? == o) := rfl
@[simp] theorem State.only_log (s : State) (o : Option Nat) :
    (s.only o).log = s.log.filter (fun x => x.script == o) := rfl

/-- A line sends the same from the record of its own part alone (R24). -/
theorem lineCommand_only (s : State) (l : Line) :
    lineCommand (s.only l.script?).log l = lineCommand s.log l := by
  cases l with
  | word w => rfl
  | script k l => exact lineCommand_congr (by simp [scriptLog, Line.script?]) l

/-- A line that comes first and has a command is sent. -/
theorem fetch_of_lineCommand {s : State} {l : Line} {ls : List Line} {w : CommandWord} (hp : s.pending = l :: ls)
    (hc : lineCommand s.log l = .next w) : fetch s = .next ⟨w, l.script?, ls⟩ := by
  simp [fetch, fetchFrom, hp, hc]

/-- A step that sends a line of another part leaves the part's lines and record as they were. -/
theorem step_only_of_ne {s t : State} {o : Option Nat} {f : Sent} (hf : fetch s = .next f) (hs : step s = .next t)
    (ho : f.script ≠ o) : (t.only o).pending = (s.only o).pending ∧ (t.only o).log = (s.only o).log := by
  obtain ⟨before, l, after, hp, hrest, hscript, -, -⟩ := fetch_next hf
  obtain ⟨r, -, hstep⟩ := step_of_fetch hf
  obtain rfl : _ = t := Host.Outcome.next.inj (hstep.symm.trans hs)
  have hl : l.script? ≠ o := hscript ▸ ho
  constructor
  · simp [hp, hrest, hl]
  · simp [ho]

/-- A step that sends a line of a part does what a step does in the state that holds that part alone. -/
theorem step_only_script {s t : State} {f : Sent} (hf : fetch s = .next f) (hs : step s = .next t) :
    step (s.only f.script) = .next (t.only f.script) := by
  obtain ⟨before, l, after, hp, hrest, hscript, hc, hbefore⟩ := fetch_next hf
  obtain ⟨r, ha, hstep⟩ := step_of_fetch hf
  obtain rfl : _ = t := Host.Outcome.next.inj (hstep.symm.trans hs)
  have hnil : before.filter (fun z => z.script? == l.script?) = [] := by
    simpa [List.filter_eq_nil_iff] using hbefore
  have hhead : (s.only l.script?).pending = l :: after.filter (fun z => z.script? == l.script?) := by
    simp [hp, hnil]
  obtain ⟨q, hq, halone⟩ := step_of_fetch (fetch_of_lineCommand hhead ((lineCommand_only s l).trans hc))
  obtain rfl : q = r := Option.some.inj (hq.symm.trans ha)
  rw [hscript, halone]
  simp [State.only, hrest, hnil]

/-- The first line of a part, where it has a command, is not kept back by the others: the whole has a line to send. -/
theorem fetch_of_fetch_only {s : State} {o : Option Nat} {f : Sent} (h : fetch (s.only o) = .next f) :
    ∃ g, fetch s = .next g := by
  obtain ⟨before, l, after, hp, -, -, hc, hbefore⟩ := fetch_next h
  have hpart : ∀ z ∈ before ++ l :: after, z.script? = o := fun z hz => by
    rw [← hp] at hz; simpa using (List.mem_filter.mp hz).2
  obtain rfl : l.script? = o := hpart l (by simp)
  obtain rfl : before = [] :=
    List.eq_nil_iff_forall_not_mem.mpr fun z hz => hbefore z hz (hpart z (by simp [hz]))
  obtain ⟨others, rest, hpending, hothers, -, -⟩ := List.filter_eq_cons_iff.mp hp
  rw [fetch, hpending]
  exact fetchFrom_sends ((lineCommand_only s l).symm.trans hc) (heldBy_nil l)
    fun z hz hsame => absurd hsame (by simpa using hothers z hz)

/-- Settles O60: by the part of the line that is sent (`step_only_of_ne`, `step_only_script`), by `fetch_of_fetch_only`,
and by `blockStep_drives`. -/
theorem scriptsAndHostsShareNothing : Obligations.ScriptsAndHostsShareNothing := by
  refine ⟨fun s t o hs => ?_, fun s u o hu => ?_, blockStep_drives⟩
  · obtain ⟨f, -, hf, -, -⟩ := step_next hs
    by_cases ho : f.script = o
    · exact .inr (ho ▸ step_only_script hf hs)
    · exact .inl (step_only_of_ne hf hs ho)
  · obtain ⟨f, -, hf, -, -⟩ := step_next hu
    obtain ⟨g, hg⟩ := fetch_of_fetch_only hf
    obtain ⟨r, -, hstep⟩ := step_of_fetch hg
    exact ⟨_, hstep⟩

end Sys2Proof.Machine

/-! PROOFS. The family 20_memory.md: the ports carried over bytes (R28), no side effect (R31), and the order of the
responses when several hosts share the port (R33). -/

namespace Sys2Proof.Machine

/-! ### Little-endian bytes, in pieces -/

/-- Byte `j` of a word is its bits `8j+7:8j` (R28). -/
theorem ofNat_div_eq_extractLsb' {m : Nat} (x : BitVec m) (j : Nat) :
    BitVec.ofNat 8 (x.toNat / 256 ^ j) = x.extractLsb' (8 * j) 8 := by
  rw [BitVec.extractLsb', Nat.shiftRight_eq_div_pow, Nat.pow_mul]

/-- Bit `k` of byte `n` of a word is the word's bit `8n+k` (R28). -/
theorem exists_byte_getLsbD {m : Nat} (x : BitVec m) {bytes n k : Nat} (hn : n < bytes) (hk : k < 8) :
    ∃ c, (bytesOfNat bytes x.toNat)[n]? = some c ∧ c.getLsbD k = x.getLsbD (8 * n + k) :=
  ⟨_, getElem?_bytesOfNat _ hn, getLsbD_byte _ _ hk⟩

/-- The first `j + k` bytes are the first `j` and the `k` behind them. -/
theorem bytesOfNat_add (j k n : Nat) : bytesOfNat (j + k) n = bytesOfNat j n ++ bytesOfNat k (n / 256 ^ j) := by
  induction j generalizing n with
  | zero => simp [bytesOfNat]
  | succ j ih =>
    rw [Nat.succ_add, bytesOfNat, bytesOfNat, ih, Nat.div_div_eq_div_mul, ← Nat.pow_succ', List.cons_append]

/-- What stands above the first `k` bytes does not show in them. -/
theorem bytesOfNat_mod (k n : Nat) : bytesOfNat k (n % 256 ^ k) = bytesOfNat k n := by
  induction k generalizing n with
  | zero => rfl
  | succ k ih =>
    have hlow : BitVec.ofNat 8 (n % 256 ^ (k + 1)) = BitVec.ofNat 8 n := by
      apply BitVec.eq_of_toNat_eq
      rw [BitVec.toNat_ofNat, BitVec.toNat_ofNat, Nat.pow_succ', Nat.mod_mul_right_mod]
    rw [bytesOfNat, bytesOfNat, hlow, Nat.pow_succ', Nat.mod_mul_right_div_self, ih]

/-- `k` whole bytes of a word, from byte `j` on, are the bytes of that field of it. -/
theorem bytesOfNat_extractLsb' {m : Nat} (x : BitVec m) (j k : Nat) :
    bytesOfNat k (x.extractLsb' (8 * j) (8 * k)).toNat = bytesOfNat k (x.toNat / 256 ^ j) := by
  rw [BitVec.extractLsb'_toNat, Nat.shiftRight_eq_div_pow, Nat.pow_mul, Nat.pow_mul]
  exact bytesOfNat_mod ..

/-- The number that two pieces spell together. -/
theorem natOfBytes_append (xs ys : List Byte) :
    natOfBytes (xs ++ ys) = natOfBytes xs + 256 ^ xs.length * natOfBytes ys := by
  induction xs with
  | nil => simp [natOfBytes]
  | cons x xs ih =>
    simp only [List.cons_append, natOfBytes, ih, List.length_cons, Nat.pow_succ']
    ring

/-- The bytes of a word of `k` bytes spell its number (R28). -/
theorem natOfBytes_bytesOfNat_toNat {k : Nat} (x : BitVec (8 * k)) : natOfBytes (bytesOfNat k x.toNat) = x.toNat :=
  natOfBytes_bytesOfNat k x.toNat (Nat.pow_mul 2 8 k ▸ x.isLt)

/-- Bytes spell a word of their own width exactly when they are its bytes (R28). -/
theorem ofNat_natOfBytes_eq_iff {k : Nat} {bs : List Byte} (hlen : bs.length = k) (x : BitVec (8 * k)) :
    BitVec.ofNat (8 * k) (natOfBytes bs) = x ↔ bs = bytesOfNat k x.toNat := by
  constructor
  · rintro rfl
    subst hlen
    rw [BitVec.toNat_ofNat, Nat.pow_mul, bytesOfNat_mod, bytesOfNat_natOfBytes]
  · rintro rfl
    exact ofNat_natOfBytes_bytesOfNat x le_rfl

/-! ### The command over bytes -/

/-- The 18 bytes of a command word are those of `a`, of `b`, then `v` and `op` (R28, R38). -/
theorem bytesOfCommand_fields (w : CommandWord) :
    bytesOfCommand w = bytesOfNat 8 (aField w).toNat ++ bytesOfNat 8 (bField w).toNat ++ [vField w, opField w] := by
  have ha : bytesOfNat 8 (aField w).toNat = bytesOfNat 8 (w.toNat / 256 ^ 0) := bytesOfNat_extractLsb' w 0 8
  have hb : bytesOfNat 8 (bField w).toNat = bytesOfNat 8 (w.toNat / 256 ^ 8) := bytesOfNat_extractLsb' w 8 8
  have hv : vField w = BitVec.ofNat 8 (w.toNat / 256 ^ 16) := (ofNat_div_eq_extractLsb' w 16).symm
  have hop : opField w = BitVec.ofNat 8 (w.toNat / 256 ^ 17) := (ofNat_div_eq_extractLsb' w 17).symm
  have hcut : bytesOfCommand w = bytesOfNat (8 + 8 + 2) w.toNat := rfl
  rw [hcut, bytesOfNat_add, bytesOfNat_add, ha, hb, hv, hop]
  simp [bytesOfNat, Nat.div_div_eq_div_mul]

/-- Settles O5: bit by bit by `exists_byte_getLsbD`, field by field by `bytesOfCommand_fields` and
`ofNat_div_eq_extractLsb'`. -/
theorem portBytesAreLittleEndian : Obligations.PortBytesAreLittleEndian := by
  refine ⟨fun w => ⟨?_, ?_, ?_, ?_⟩, fun z => ⟨?_, ?_, ?_⟩, fun t j hj => ?_⟩
  · exact bytesOfNat_length ..
  · exact fun n k hn hk => exists_byte_getLsbD w hn hk
  · exact commandOfBytes_bytesOfCommand w
  · exact bytesOfCommand_fields w
  · exact bytesOfNat_length ..
  · exact fun n k hk hz => exists_byte_getLsbD z (show n < 73 by omega) hk
  · exact responseOfBytes_bytesOfResponse z
  · exact (getElem?_bytesOfNat _ hj).trans (congrArg some (ofNat_div_eq_extractLsb' t j))

/-! ### The response over bytes -/

/-- A word on RSP carries a result when its three fields are 0, `txt` and `y` (R41). -/
theorem carries_ok_iff (y : Word) (t : Txt) (z : ResponseWord) :
    (Response.ok y t).Carries z
      ↔ z.extractLsb' 0 64 = y ∧ z.extractLsb' 64 512 = t ∧ z.extractLsb' 576 2 = 0#2 := by
  simp only [Response.Carries, Response.err, Response.y?, Response.txt?, Option.some.injEq, forall_eq']
  exact and_comm.trans and_assoc

/-- A word on RSP carries an error by its field `err` alone (R94). -/
theorem carries_error_iff (e : Err) (z : ResponseWord) :
    (Response.error e).Carries z ↔ z.extractLsb' 576 2 = e.code := by
  simp [Response.Carries, Response.err, Response.y?, Response.txt?]

/-- A field of the response word that begins at byte `n` is spelled by the bytes from there on. -/
theorem extractLsb'_responseOfBytes_append {xs : List Byte} {n len : Nat} (ys : List Byte) (hn : xs.length = n)
    (hlen : 8 * n + len ≤ 578) :
    (responseOfBytes (xs ++ ys)).extractLsb' (8 * n) len = BitVec.ofNat len (natOfBytes ys) := by
  have hpow : 256 ^ xs.length = 2 ^ (8 * n) := by rw [hn, Nat.pow_mul]
  have hxs : natOfBytes xs < 2 ^ (8 * n) := hpow ▸ natOfBytes_lt xs
  apply BitVec.eq_of_getLsbD_eq
  intro i hi
  rw [BitVec.getLsbD_extractLsb', responseOfBytes, BitVec.getLsbD_ofNat, BitVec.getLsbD_ofNat, natOfBytes_append, hpow,
    Nat.add_comm (natOfBytes xs), Nat.testBit_two_pow_mul_add _ hxs]
  simp [show 8 * n + i < 578 by omega]

/-- A field is spelled by the bytes it fills, whatever stands behind them. -/
theorem ofNat_natOfBytes_append {k : Nat} {xs : List Byte} (hk : xs.length = k) (ys : List Byte) :
    BitVec.ofNat (8 * k) (natOfBytes (xs ++ ys)) = BitVec.ofNat (8 * k) (natOfBytes xs) := by
  apply BitVec.eq_of_toNat_eq
  rw [BitVec.toNat_ofNat, BitVec.toNat_ofNat, natOfBytes_append, hk, Nat.pow_mul, Nat.add_mul_mod_self_left]

/-- `err` of the response word is bits 1:0 of byte 72 (R28, R41). -/
theorem err_responseOfBytes {rest : List Byte} (hrest : rest.length = 72) (c : Byte) :
    (responseOfBytes (rest ++ [c])).extractLsb' 576 2 = c.extractLsb' 0 2 := by
  rw [extractLsb'_responseOfBytes_append (n := 72) [c] hrest le_rfl]
  simp [natOfBytes, BitVec.extractLsb']

/-- `y` of the response word is spelled by the first 8 bytes (R28, R41). -/
theorem y_responseOfBytes_eq_iff {ys : List Byte} (hys : ys.length = 8) (rest : List Byte) (y : Word) :
    (responseOfBytes (ys ++ rest)).extractLsb' 0 64 = y ↔ ys = bytesOfNat 8 y.toNat := by
  have hfield := extractLsb'_responseOfBytes_append (xs := []) (n := 0) (len := 8 * 8) (ys ++ rest) rfl (by decide)
  rw [ofNat_natOfBytes_append hys] at hfield
  exact (Eq.congr_left hfield).trans (ofNat_natOfBytes_eq_iff hys y)

/-- `txt` of the response word is spelled by the 64 bytes behind them (R28, R41). -/
theorem txt_responseOfBytes_eq_iff {ys ts : List Byte} (hys : ys.length = 8) (hts : ts.length = 64) (rest : List Byte)
    (t : Txt) : (responseOfBytes (ys ++ (ts ++ rest))).extractLsb' 64 512 = t ↔ ts = bytesOfNat 64 t.toNat := by
  have hfield := extractLsb'_responseOfBytes_append (n := 8) (len := 8 * 64) (ts ++ rest) hys (by decide)
  rw [ofNat_natOfBytes_append hts] at hfield
  exact (Eq.congr_left hfield).trans (ofNat_natOfBytes_eq_iff hts t)

/-- The number of a result's response word (R41). -/
theorem toNat_resultWord (y : Word) (t : Txt) :
    ((0#2 : BitVec 2) ++ t ++ y).toNat = natOfBytes (bytesOfNat 8 y.toNat ++ bytesOfNat 64 t.toNat ++ [0#8]) := by
  have hy : natOfBytes (bytesOfNat 8 y.toNat) = y.toNat := natOfBytes_bytesOfNat_toNat (k := 8) y
  have ht : natOfBytes (bytesOfNat 64 t.toNat) = t.toNat := natOfBytes_bytesOfNat_toNat (k := 64) t
  have hword : ((0#2 : BitVec 2) ++ t ++ y).toNat = t.toNat <<< 64 + y.toNat := by
    rw [BitVec.toNat_append, BitVec.toNat_append, BitVec.toNat_ofNat, Nat.zero_mod, Nat.zero_shiftLeft, Nat.zero_or,
      Nat.shiftLeft_add_eq_or_of_lt y.isLt]
  have hlast : natOfBytes [0#8] = 0 := rfl
  rw [hword, natOfBytes_append, natOfBytes_append, hy, ht, hlast, bytesOfNat_length, Nat.shiftLeft_eq, Nat.mul_zero]
  omega

/-- A result is written as the bytes of `y`, the bytes of `txt` and a last byte of 0 (R28; log 15). -/
theorem bytes?_ok (y : Word) (t : Txt) :
    (Response.ok y t).bytes? = some (bytesOfNat 8 y.toNat ++ bytesOfNat 64 t.toNat ++ [0#8]) := by
  have hlen : (bytesOfNat 8 y.toNat ++ bytesOfNat 64 t.toNat ++ [0#8]).length = Config.responseBytes := by
    simp [bytesOfNat_length, Config.responseBytes]
  rw [Response.bytes?, Response.word?, Option.map_some, bytesOfResponse, toNat_resultWord, ← hlen,
    bytesOfNat_natOfBytes]

/-- 73 bytes are 72 and a last one. -/
theorem length_eq_responseBytes_iff (bs : List Byte) :
    bs.length = Config.responseBytes ↔ ∃ (rest : List Byte) (c : Byte), rest.length = 72 ∧ bs = rest ++ [c] := by
  constructor
  · intro hlen
    have hne : bs ≠ [] := List.ne_nil_of_length_eq_add_one hlen
    exact ⟨bs.dropLast, bs.getLast hne, by simp [hlen, Config.responseBytes], (bs.dropLast_append_getLast hne).symm⟩
  · rintro ⟨rest, c, hrest, rfl⟩
    simp [hrest, Config.responseBytes]

/-- The bytes that carry an error: the last of 73 has its code in bits 1:0 (R94). -/
theorem carriesBytes_error_iff (e : Err) (bs : List Byte) :
    (Response.error e).CarriesBytes bs
      ↔ ∃ (rest : List Byte) (c : Byte), rest.length = 72 ∧ c.extractLsb' 0 2 = e.code ∧ bs = rest ++ [c] := by
  rw [Response.CarriesBytes, carries_error_iff, length_eq_responseBytes_iff]
  constructor
  · rintro ⟨⟨rest, c, hrest, rfl⟩, herr⟩
    exact ⟨rest, c, hrest, (err_responseOfBytes hrest c).symm.trans herr, rfl⟩
  · rintro ⟨rest, c, hrest, hc, rfl⟩
    exact ⟨⟨rest, c, hrest, rfl⟩, (err_responseOfBytes hrest c).trans hc⟩

/-- The three fields of the word that 73 bytes carry, read off the bytes (R28, R41). -/
theorem carries_ok_responseOfBytes_iff {rest : List Byte} (hrest : rest.length = 72) (c : Byte) (y : Word) (t : Txt) :
    (Response.ok y t).Carries (responseOfBytes (rest ++ [c]))
      ↔ rest = bytesOfNat 8 y.toNat ++ bytesOfNat 64 t.toNat ∧ c.extractLsb' 0 2 = 0#2 := by
  have hys : (rest.take 8).length = 8 := by simp [hrest]
  have hts : (rest.drop 8).length = 64 := by simp [hrest]
  have hcut : rest ++ [c] = rest.take 8 ++ (rest.drop 8 ++ [c]) := by
    rw [← List.append_assoc, List.take_append_drop]
  rw [carries_ok_iff, err_responseOfBytes hrest, hcut, y_responseOfBytes_eq_iff hys, txt_responseOfBytes_eq_iff hys hts,
    ← and_assoc]
  refine and_congr_left' ?_
  constructor
  · rintro ⟨hy, ht⟩
    rw [← hy, ← ht, List.take_append_drop]
  · rintro rfl
    simp [bytesOfNat_length]

/-- The bytes that carry a result: those of `y`, those of `txt`, and a last byte whose bits 1:0 are 0 (R41). -/
theorem carriesBytes_ok_iff (y : Word) (t : Txt) (bs : List Byte) :
    (Response.ok y t).CarriesBytes bs
      ↔ ∃ c : Byte, c.extractLsb' 0 2 = 0#2 ∧ bs = bytesOfNat 8 y.toNat ++ bytesOfNat 64 t.toNat ++ [c] := by
  have hlen : (bytesOfNat 8 y.toNat ++ bytesOfNat 64 t.toNat).length = 72 := by simp [bytesOfNat_length]
  rw [Response.CarriesBytes, length_eq_responseBytes_iff]
  constructor
  · rintro ⟨⟨rest, c, hrest, rfl⟩, hcarries⟩
    obtain ⟨rfl, hc⟩ := (carries_ok_responseOfBytes_iff hrest c y t).mp hcarries
    exact ⟨c, hc, rfl⟩
  · rintro ⟨c, hc, rfl⟩
    exact ⟨⟨_, c, hlen, rfl⟩, (carries_ok_responseOfBytes_iff hlen c y t).mpr ⟨rfl, hc⟩⟩

/-- Settles O59: `bytes?_ok` says what is written, `carriesBytes_ok_iff` and `carriesBytes_error_iff` what is read. -/
theorem responseBytesCarryTheFields : Obligations.ResponseBytesCarryTheFields :=
  ⟨fun y t => ⟨bytes?_ok y t, carriesBytes_ok_iff y t⟩, fun e => ⟨rfl, carriesBytes_error_iff e⟩⟩

/-! ### No side effect -/

/-- Settles O44: each command drives one response from every state (`exec_drives`), and a later response replaces an
earlier one. -/
theorem commandsHaveNoSideEffect : Obligations.CommandsHaveNoSideEffect := by
  intro i j s
  obtain ⟨p, hp⟩ := exec_drives i
  obtain ⟨q, hq⟩ := exec_drives j
  exact ⟨p, q, hp s, hq s, hp (s.drive p), hq (s.drive p), hp (s.drive q)⟩

/-! ### A run of literal words -/

/-- Every command word has an answer (R19, R52). -/
theorem answer_isSome (w : CommandWord) : (answer w).isSome := by
  obtain ⟨r, h, -⟩ := blockStep_answer w
  simp [h]

/-- The exchange that a literal word leads to, from whatever state it is sent: the word with its answer. -/
def literalExchange (w : CommandWord) : Exchange := ⟨w, (answer w).get (answer_isSome w), none⟩

@[simp] theorem literalExchange_cmd (w : CommandWord) : (literalExchange w).cmd = w := rfl

@[simp] theorem some_literalExchange_rsp (w : CommandWord) : some (literalExchange w).rsp = answer w :=
  Option.some_get _

/-- A step whose next line is a literal word records that word's exchange and leaves the lines behind it. -/
theorem step_word {s : State} {w : CommandWord} {ls : List Line} (h : s.pending = .word w :: ls) :
    ∃ t, step s = .next t ∧ t.pending = ls ∧ t.log = s.log ++ [literalExchange w] := by
  obtain ⟨r, ha, hs⟩ := step_of_fetch (fetch_word h)
  exact ⟨_, hs, rfl, by simp [literalExchange, ha]⟩

/-- A run over literal words sends every one of them and records their exchanges in their order (R33, R112). -/
theorem run_words (ws : List CommandWord) {s : State} (h : s.pending = ws.map Line.word) :
    ∃ t : State, Sys2Proof.core.run ws.length s = .next t ∧ t.pending = [] ∧ t.log = s.log ++ ws.map literalExchange := by
  induction ws generalizing s with
  | nil => exact ⟨s, rfl, h, by simp⟩
  | cons w ws ih =>
    obtain ⟨u, hu, hpending, hlog⟩ := step_word h
    obtain ⟨t, ht, hdone, hrecord⟩ := ih hpending
    have hrun : Sys2Proof.core.run (w :: ws).length s = Sys2Proof.core.run ws.length u := by
      simp only [List.length_cons, Host.Core.run, show Sys2Proof.core.step s = .next u from hu]
    exact ⟨t, hrun.trans ht, hdone, by simp [hrecord, hlog]⟩

/-- The responses to the words of one host, picked out of the exchanges of all, are those words' answers. -/
theorem responses_of_host (xs : List (Nat × CommandWord)) (host : Nat) :
    (((xs.map Prod.fst).zip (xs.map (literalExchange ∘ Prod.snd))).filter (fun p => p.1 == host)).map
        (fun p => some p.2.rsp)
      = (xs.filter (fun p => p.1 == host)).map (fun p => answer p.2) := by
  rw [List.zip_map', List.filter_map, List.map_map]
  exact List.map_congr_left fun p _ => some_literalExchange_rsp p.2

/-- Settles O52: `run_words` gives the record of the run, which answers each word by itself, and `responses_of_host`
picks one host's share out of it. -/
theorem everyInterleavingGivesEachHostItsResponses : Obligations.EveryInterleavingGivesEachHostItsResponses := by
  intro xs s hpending
  obtain ⟨t, hrun, -, hlog⟩ := run_words (xs.map Prod.snd) (s := s) (by simp [hpending])
  rw [List.length_map] at hrun
  rw [List.map_map] at hlog
  refine ⟨t, xs.map (literalExchange ∘ Prod.snd), hrun, hlog, by simp, fun n x hx => ?_, responses_of_host xs⟩
  obtain ⟨p, -, rfl⟩ := List.mem_map.mp (List.mem_of_getElem? hx)
  exact (some_literalExchange_rsp p.2).symm

end Sys2Proof.Machine

/-! PROOFS. The family 30_encoding.md, the command word: fields, decoder, encoder and dispatch (R38, R43 to R46, R51). -/

namespace Sys2Proof.Machine

/-! ### The opcode map -/

@[simp] theorem ofOpcode_opcode (m : Mnemonic) : Mnemonic.ofOpcode m.opcode = some m := by
  cases m <;> rfl

/-- An opcode selects a mnemonic exactly when it is that mnemonic's (R44). -/
theorem ofOpcode_eq_some_iff {op : Byte} {m : Mnemonic} : Mnemonic.ofOpcode op = some m ↔ op = m.opcode := by
  constructor
  · intro h
    apply BitVec.eq_of_toNat_eq
    unfold Mnemonic.ofOpcode at h
    split at h <;> cases h <;> assumption
  · rintro rfl
    exact ofOpcode_opcode m

/-- The reserved opcodes are 0x0E and above (R51). -/
theorem ofOpcode_eq_none_iff {op : Byte} : Mnemonic.ofOpcode op = none ↔ 0x0E ≤ op.toNat := by
  unfold Mnemonic.ofOpcode
  split <;> simp_all
  omega

theorem opcode_toNat_lt (m : Mnemonic) : m.opcode.toNat < 0x0E := by
  cases m <;> decide

/-! ### The instruction of a mnemonic -/

@[simp] theorem mnemonic_instr (m : Mnemonic) (a b : Word) (v : Byte) : (m.instr a b v).mnemonic = m := by
  cases m <;> rfl

/-- A command keeps its `a` exactly where it uses one (R46). -/
theorem aOperand_instr (m : Mnemonic) (a b : Word) (v : Byte) :
    (m.instr a b v).aOperand = if Field.a ∈ m.operands then a else 0 := by
  cases m <;> rfl

/-- A command keeps its `b` exactly where it uses one (R46). -/
theorem bOperand_instr (m : Mnemonic) (a b : Word) (v : Byte) :
    (m.instr a b v).bOperand = if Field.b ∈ m.operands then b else 0 := by
  cases m <;> rfl

/-- A command keeps its `v` exactly where it uses one (R46). -/
theorem vOperand_instr (m : Mnemonic) (a b : Word) (v : Byte) :
    (m.instr a b v).vOperand = if Field.v ∈ m.operands then v else 0 := by
  cases m <;> rfl

/-- The fields a command does not use have no part in the instruction (R46). -/
theorem instr_congr {m : Mnemonic} {a a' b b' : Word} {v v' : Byte} (ha : Field.a ∈ m.operands → a' = a)
    (hb : Field.b ∈ m.operands → b' = b) (hv : Field.v ∈ m.operands → v' = v) : m.instr a' b' v' = m.instr a b v := by
  cases m <;> simp_all [Mnemonic.operands, Mnemonic.instr]

/-- An instruction is its mnemonic's on its own operands. -/
@[simp] theorem instr_operands (i : Instr) : i.mnemonic.instr i.aOperand i.bOperand i.vOperand = i := by
  cases i <;> rfl

/-! ### The fields of a command word -/

/-- A command word is made of its four fields (R38). -/
theorem assembleFields_fields (w : CommandWord) :
    assembleFields (opField w) (vField w) (bField w) (aField w) = w := by
  have hop : opField w ++ vField w = w.extractLsb' 128 16 :=
    BitVec.extractLsb'_append_extractLsb'_eq_extractLsb' (by rfl)
  have hv : w.extractLsb' 128 16 ++ bField w = w.extractLsb' 64 80 :=
    BitVec.extractLsb'_append_extractLsb'_eq_extractLsb' (by rfl)
  have hb : w.extractLsb' 64 80 ++ aField w = w.extractLsb' 0 144 :=
    BitVec.extractLsb'_append_extractLsb'_eq_extractLsb' (by rfl)
  rw [assembleFields, hop, hv, hb, BitVec.extractLsb'_eq_self]

/-- Settles O4: a field's bit is the word's bit at the field's place, and `assembleFields_fields` puts the four
together. -/
theorem commandFieldsStandWhereTheFormatPutsThem : Obligations.CommandFieldsStandWhereTheFormatPutsThem := by
  refine fun w => ⟨fun k hk => ⟨?_, ?_⟩, fun k hk => ⟨?_, ?_⟩, assembleFields_fields w⟩
  · simp [aField, hk]
  · simp [bField, hk]
  · simp [vField, hk]
  · simp [opField, hk]

/-! ### The decoder -/

/-- A word decodes exactly when its opcode is a mnemonic's, and then to that mnemonic on the word's fields (R43). -/
theorem decodeWord_eq_ok_iff {w : CommandWord} {i : Instr} :
    decodeWord w = .ok i ↔ ∃ m : Mnemonic, opField w = m.opcode ∧ i = m.instr (aField w) (bField w) (vField w) := by
  simp only [← ofOpcode_eq_some_iff]
  cases h : Mnemonic.ofOpcode (opField w) <;> simp [decodeWord, h, eq_comm (a := i)]

/-- The command of an opcode, on the word's fields (R43, R44). -/
theorem decodeWord_of_opcode {w : CommandWord} {m : Mnemonic} (h : opField w = m.opcode) :
    decodeWord w = .ok (m.instr (aField w) (bField w) (vField w)) :=
  decodeWord_eq_ok_iff.mpr ⟨m, h, rfl⟩

/-- A reserved opcode is refused (R51). -/
theorem decodeWord_of_reserved {w : CommandWord} (h : 0x0E ≤ (opField w).toNat) :
    decodeWord w = .error (.reservedOpcode (opField w)) := by
  simp [decodeWord, ofOpcode_eq_none_iff.mpr h]

/-- Every opcode is a mnemonic's or reserved (R44, R51). -/
theorem opcode_or_reserved (op : Byte) : (∃ m : Mnemonic, op = m.opcode) ∨ 0x0E ≤ op.toNat := by
  cases h : Mnemonic.ofOpcode op with
  | some m => exact .inl ⟨m, ofOpcode_eq_some_iff.mp h⟩
  | none => exact .inr (ofOpcode_eq_none_iff.mp h)

/-- The decoder refuses exactly the words of the reserved opcodes (R51). -/
theorem exists_decodeWord_error_iff {w : CommandWord} : (∃ e, decodeWord w = .error e) ↔ 0x0E ≤ (opField w).toNat := by
  refine ⟨fun ⟨e, he⟩ => ?_, fun h => ⟨_, decodeWord_of_reserved h⟩⟩
  rcases opcode_or_reserved (opField w) with ⟨m, hm⟩ | h
  · rw [decodeWord_of_opcode hm] at he
    cases he
  · exact h

/-- The decoder reads the command of mnemonic `m` exactly from the words of its opcode (R43). -/
theorem exists_decodeWord_mnemonic_iff {w : CommandWord} {m : Mnemonic} :
    (∃ i, decodeWord w = .ok i ∧ i.mnemonic = m) ↔ opField w = m.opcode := by
  constructor
  · rintro ⟨i, hi, rfl⟩
    obtain ⟨m, hm, rfl⟩ := decodeWord_eq_ok_iff.mp hi
    rw [hm, mnemonic_instr]
  · intro h
    exact ⟨_, decodeWord_of_opcode h, mnemonic_instr ..⟩

/-! ### Decoding what was encoded -/

@[simp] theorem opField_encode (i : Instr) : opField (encode i) = i.mnemonic.opcode := opField_assembleFields ..
@[simp] theorem vField_encode (i : Instr) : vField (encode i) = i.vOperand := vField_assembleFields ..
@[simp] theorem bField_encode (i : Instr) : bField (encode i) = i.bOperand := bField_assembleFields ..
@[simp] theorem aField_encode (i : Instr) : aField (encode i) = i.aOperand := aField_assembleFields ..

/-- The decoder reads a canonical command word back (R46). -/
@[simp] theorem decodeWord_encode (i : Instr) : decodeWord (encode i) = .ok i := by
  rw [decodeWord_of_opcode (opField_encode i), aField_encode, bField_encode, vField_encode, instr_operands]

/-- The byte decoder reads the first 18 bytes as one command word and leaves the others (R28, R37). -/
theorem decode_bytesOfCommand_append (w : CommandWord) (rest : List Byte) :
    decode (bytesOfCommand w ++ rest) = (decodeWord w).map (fun i => (i, rest)) := by
  have hlen : (bytesOfCommand w).length = Config.commandBytes := bytesOfNat_length ..
  rw [decode, if_neg (by simp [hlen]), List.take_left' hlen, List.drop_left' hlen, commandOfBytes_bytesOfCommand]
  cases decodeWord w <;> rfl

/-- Settles O1: `decodeWord_encode` on the word, `decode_bytesOfCommand_append` on its bytes. -/
theorem decodeEncodeRoundTrip : Obligations.DecodeEncodeRoundTrip := by
  refine fun i => ⟨decodeWord_encode i, fun rest => ?_⟩
  rw [encodeBytes, decode_bytesOfCommand_append, decodeWord_encode]
  rfl

/-! ### Canonical words -/

/-- A canonical word has a mnemonic's opcode and 0 in every field that the mnemonic does not use (R46). -/
theorem canonical_iff {w : CommandWord} :
    CommandWord.canonical w = true ↔ ∃ m : Mnemonic, opField w = m.opcode ∧ (Field.a ∉ m.operands → aField w = 0)
      ∧ (Field.b ∉ m.operands → bField w = 0) ∧ (Field.v ∉ m.operands → vField w = 0) := by
  simp only [← ofOpcode_eq_some_iff]
  cases h : Mnemonic.ofOpcode (opField w) <;>
    simp [CommandWord.canonical, h, and_assoc, or_iff_not_imp_left]

/-- Every encoding is canonical (R46). -/
@[simp] theorem canonical_encode (i : Instr) : CommandWord.canonical (encode i) = true := by
  have ha := aOperand_instr i.mnemonic i.aOperand i.bOperand i.vOperand
  have hb := bOperand_instr i.mnemonic i.aOperand i.bOperand i.vOperand
  have hv := vOperand_instr i.mnemonic i.aOperand i.bOperand i.vOperand
  rw [instr_operands] at ha hb hv
  refine canonical_iff.mpr ⟨i.mnemonic, opField_encode i, fun h => ?_, fun h => ?_, fun h => ?_⟩
  · rw [aField_encode, ha, if_neg h]
  · rw [bField_encode, hb, if_neg h]
  · rw [vField_encode, hv, if_neg h]

/-- Where the unused fields are 0, keeping the used ones keeps them all. -/
theorem ite_mem_operands {α : Type} [Zero α] {m : Mnemonic} {f : Field} {x : α} (h : f ∉ m.operands → x = 0) :
    (if f ∈ m.operands then x else 0) = x :=
  ite_eq_left_iff.mpr fun hf => (h hf).symm

/-- Settles O2: the command of the word's opcode has the word's own fields, since the unused ones are 0. -/
theorem canonicalWordsHaveOneMeaning : Obligations.CanonicalWordsHaveOneMeaning := by
  intro w hw
  obtain ⟨m, hop, ha, hb, hv⟩ := canonical_iff.mp hw
  refine ⟨_, decodeWord_of_opcode hop, ?_⟩
  rw [encode, mnemonic_instr, aOperand_instr, bOperand_instr, vOperand_instr, ite_mem_operands ha, ite_mem_operands hb,
    ite_mem_operands hv, ← hop, assembleFields_fields]

/-! ### The opcode table -/

/-- The row of a mnemonic: its opcode in the field op, 0 below (R43). -/
def rowOf (m : Mnemonic) : OpcodeRow := ⟨m, assembleFields m.opcode 0 0 0⟩

theorem opcodeTable_eq : opcodeTable = allMnemonics.map rowOf := by decide

theorem mem_allMnemonics (m : Mnemonic) : m ∈ allMnemonics := by
  cases m <;> decide

/-- The rows of the table are those of the mnemonics. -/
theorem mem_opcodeTable_iff {row : OpcodeRow} : row ∈ opcodeTable ↔ ∃ m, row = rowOf m := by
  simp [opcodeTable_eq, mem_allMnemonics, eq_comm]

/-- Two command words meet field by field. -/
theorem assembleFields_and (op op' v v' : Byte) (b b' a a' : Word) :
    assembleFields op v b a &&& assembleFields op' v' b' a'
      = assembleFields (op &&& op') (v &&& v') (b &&& b') (a &&& a') := by
  change (op ++ v ++ b ++ a : BitVec (8 + 8 + 64 + 64)) &&& (op' ++ v' ++ b' ++ a') = _
  rw [BitVec.and_append, BitVec.and_append, BitVec.and_append]
  rfl

/-- The mask keeps the field op and nothing else (R43). -/
theorem and_opcodeMask (w : CommandWord) : w &&& opcodeMask = assembleFields (opField w) 0 0 0 := by
  have hmask : opcodeMask = assembleFields (BitVec.allOnes 8) 0#8 0#64 0#64 := by decide
  calc w &&& opcodeMask
      = assembleFields (opField w) (vField w) (bField w) (aField w) &&& assembleFields (BitVec.allOnes 8) 0#8 0#64 0#64 := by
        rw [assembleFields_fields, hmask]
    _ = assembleFields (opField w) 0 0 0 := by
        rw [assembleFields_and, BitVec.and_allOnes, BitVec.and_zero, BitVec.and_zero, BitVec.and_zero]
        rfl

/-- A word matches a row exactly when it has the row's opcode (R43). -/
theorem rowOf_hits_iff {m : Mnemonic} {w : CommandWord} : (rowOf m).hits w = true ↔ opField w = m.opcode := by
  rw [OpcodeRow.hits, beq_iff_eq, and_opcodeMask, rowOf]
  constructor
  · intro h
    rw [← opField_assembleFields (opField w) 0 0 0, h, opField_assembleFields]
  · intro h
    rw [h]

/-- No row matches exactly when the opcode is reserved (R43, R51). -/
theorem forall_hits_eq_false_iff {w : CommandWord} :
    (∀ row ∈ opcodeTable, row.hits w = false) ↔ 0x0E ≤ (opField w).toNat := by
  simp only [mem_opcodeTable_iff, forall_exists_index, forall_eq_apply_imp_iff, ← Bool.not_eq_true, rowOf_hits_iff]
  constructor
  · intro h
    exact (opcode_or_reserved (opField w)).resolve_left fun ⟨m, hm⟩ => h m hm
  · intro h m hm
    have hlt := opcode_toNat_lt m
    rw [hm] at h
    omega

/-- Settles O3: a row matches, and the decoder reads its command, exactly at its opcode (`rowOf_hits_iff`,
`exists_decodeWord_mnemonic_iff`); no row matches, and the decoder refuses, exactly at a reserved one. -/
theorem decodingLooksAtOpOnly : Obligations.DecodingLooksAtOpOnly := by
  refine ⟨fun w row hrow => ?_, fun w => ?_, by decide, fun w w' hop => ?_⟩
  · obtain ⟨m, rfl⟩ := mem_opcodeTable_iff.mp hrow
    exact rowOf_hits_iff.trans exists_decodeWord_mnemonic_iff.symm
  · exact forall_hits_eq_false_iff.trans exists_decodeWord_error_iff.symm
  · rcases opcode_or_reserved (opField w) with ⟨m, hm⟩ | h
    · exact .inl ⟨_, _, decodeWord_of_opcode hm, decodeWord_of_opcode (hop ▸ hm), by simp⟩
    · exact .inr ⟨_, _, decodeWord_of_reserved h, decodeWord_of_reserved (hop ▸ h)⟩

/-- Settles O7: the decoder run on the seven printed words. -/
theorem sampleWordsDecodeToTheirCommands : Obligations.SampleWordsDecodeToTheirCommands := by
  unfold Obligations.SampleWordsDecodeToTheirCommands
  decide

/-! ### The block on a command word -/

/-- The block runs the command of the word's opcode (R45). -/
theorem blockStep_of_opcode {w : CommandWord} {m : Mnemonic} (h : opField w = m.opcode) (s : State) :
    blockStep w s = exec (m.instr (aField w) (bField w) (vField w)) s :=
  blockStep_of_ok (decodeWord_of_opcode h) s

/-- The block answers a reserved opcode with IllegalOp (R93). -/
theorem blockStep_of_reserved {w : CommandWord} (h : 0x0E ≤ (opField w).toNat) (s : State) :
    blockStep w s = .next (s.drive (.error .illegalOp)) :=
  blockStep_of_error (decodeWord_of_reserved h) s

/-- Settles O8: `instr_congr` drops the fields that are not used. -/
theorem unusedFieldsAreIgnored : Obligations.UnusedFieldsAreIgnored := by
  refine ⟨fun w w' m s hm hop ha hb hv => ?_, by decide, by decide, by decide, rfl, canonical_encode⟩
  have hw : opField w = m.opcode := ofOpcode_eq_some_iff.mp hm
  rw [blockStep_of_opcode hw, blockStep_of_opcode (hop.trans hw), instr_congr ha hb hv]

end Sys2Proof.Machine

/-! PROOFS. The family 30_encoding.md, operands and responses: index, amount and scalars (R47, R48, R50), errors and the
layout of a response (R41, R42, R45). -/

namespace Sys2Proof.Machine

/-! ### Every response of a command -/

/-- A command that checks an index before it responds has a result with txt = 0, or IndexRange (R45, R66). -/
theorem withIndex_response (b : Word) (f : Fin 64 → Word) :
    ∃ r, (∀ s, withIndex b (fun k => respond (f k)) s = .next (s.drive r))
      ∧ ((∃ y, r = .ok y 0) ∨ r = .error .indexRange) := by
  by_cases h : b.toNat < 64
  · exact ⟨_, fun s => withIndex_of_lt h _ s, .inl ⟨_, rfl⟩⟩
  · exact ⟨_, fun s => withIndex_of_ge (Nat.le_of_not_lt h) _ s, .inr rfl⟩

/-- What a command answers: RENDER a rendering with y = 0, every other command a `y` with txt = 0, or IndexRange
(R45, R87). -/
theorem exec_response (i : Instr) : ∃ r, (∀ s, exec i s = .next (s.drive r))
    ∧ ((∃ a, i = .render a ∧ r = .ok 0 (render a)) ∨ (i.mnemonic ≠ .render ∧ ∃ y, r = .ok y 0)
      ∨ r = .error .indexRange) := by
  cases i with
  | seton a b | setoff a b | set a b v | get a b | flip a b =>
    obtain ⟨r, hr, hy | he⟩ := withIndex_response b _
    · exact ⟨r, hr, .inr (.inl ⟨nofun, hy⟩)⟩
    · exact ⟨r, hr, .inr (.inr he)⟩
  | render a => exact ⟨_, fun _ => rfl, .inl ⟨a, rfl, rfl⟩⟩
  | _ => exact ⟨_, fun _ => rfl, .inr (.inl ⟨nofun, _, rfl⟩)⟩

/-- A command answers a result or IndexRange (R91). -/
theorem exec_ok_or_indexRange (i : Instr) : ∃ r, (∀ s, exec i s = .next (s.drive r))
    ∧ ((∃ y t, r = .ok y t) ∨ r = .error .indexRange) := by
  obtain ⟨r, hr, ⟨a, -, rfl⟩ | ⟨-, y, rfl⟩ | rfl⟩ := exec_response i
  · exact ⟨_, hr, .inl ⟨_, _, rfl⟩⟩
  · exact ⟨_, hr, .inl ⟨_, _, rfl⟩⟩
  · exact ⟨_, hr, .inr rfl⟩

/-! ### The codes of `err` (R42) -/

theorem err_eq_zero_iff (r : Response) : r.err = 0#2 ↔ ∃ y t, r = .ok y t := by
  rcases r with ⟨y, t⟩ | _ | _ <;> simp [Response.err, Err.code]

theorem err_eq_one_iff (r : Response) : r.err = 1#2 ↔ r = .error .indexRange := by
  rcases r with ⟨y, t⟩ | _ | _ <;> simp [Response.err, Err.code]

theorem err_eq_two_iff (r : Response) : r.err = 2#2 ↔ r = .error .illegalOp := by
  rcases r with ⟨y, t⟩ | _ | _ <;> simp [Response.err, Err.code]

theorem err_ne_three (r : Response) : r.err ≠ 3#2 := by
  rcases r with ⟨y, t⟩ | _ | _ <;> simp [Response.err, Err.code]

/-! ### Opcode and error -/

/-- Settles O9: the reserved opcodes by `decodeWord_of_reserved`, the others by `exec_ok_or_indexRange`. -/
theorem reservedOpcodesRaiseIllegalOp : Obligations.ReservedOpcodesRaiseIllegalOp := by
  refine ⟨fun w s h => ⟨decodeWord_of_reserved h, blockStep_of_reserved h s⟩, rfl, fun w s h => ?_⟩
  obtain ⟨m, hm⟩ := (opcode_or_reserved (opField w)).resolve_right (Nat.not_le.mpr h)
  obtain ⟨r, hr, hcases⟩ := exec_ok_or_indexRange (m.instr (aField w) (bField w) (vField w))
  have hne : r ≠ .error .illegalOp := by
    rcases hcases with ⟨y, t, rfl⟩ | rfl <;> simp
  exact ⟨⟨_, decodeWord_of_opcode hm⟩, r, (blockStep_of_opcode hm s).trans (hr s), hne, mt (err_eq_two_iff r).mp hne⟩

/-- The five index commands are the opcodes 0x03 to 0x07 (R44). -/
theorem mem_indexMnemonics_iff (m : Mnemonic) : m ∈ [Mnemonic.seton, .setoff, .set, .get, .flip]
    ↔ 0x03 ≤ m.opcode.toNat ∧ m.opcode.toNat ≤ 0x07 := by
  cases m <;> decide

/-- `err` of a defined opcode is 1 for an index command at an index of 64 or more and 0 otherwise (R92, R95). -/
theorem err_of_exec_instr {m : Mnemonic} {a b : Word} {v : Byte} {r : Response}
    (h : ∀ s, exec (m.instr a b v) s = .next (s.drive r)) (hr : (∃ y t, r = .ok y t) ∨ r = .error .indexRange) :
    r.err = if 0x03 ≤ m.opcode.toNat ∧ m.opcode.toNat ≤ 0x07 ∧ 64 ≤ b.toNat then 1#2 else 0#2 := by
  have hiff := replyOf_instr_ok_iff m a b v
  rw [replyOf_of_exec (h State.reset), mem_indexMnemonics_iff] at hiff
  rcases hr with ⟨y, t, rfl⟩ | rfl
  · have hlt := hiff.mp ⟨y, t, rfl⟩
    rw [if_neg (by omega)]
    rfl
  · have hge : ¬ (0x03 ≤ m.opcode.toNat ∧ m.opcode.toNat ≤ 0x07 → b.toNat < 64) := fun hb => by
      obtain ⟨y, t, he⟩ := hiff.mpr hb
      cases he
    rw [if_pos (by omega)]
    rfl

/-- An index of 64 or more has a bit among bits 63:6 (R47). -/
theorem lt_64_iff_high_bits (b : Word) : b.toNat < 64 ↔ b.extractLsb' 6 58 = 0 := by
  change _ ↔ _ = 0#58
  rw [← BitVec.toNat_inj, BitVec.extractLsb'_toNat, BitVec.toNat_zero]
  omega

/-- The `err` that a command word is answered with, from every state (R92, R93, R95, R96). -/
theorem blockStep_err (w : CommandWord) : ∃ r : Response, (∀ s, blockStep w s = .next (s.drive r))
    ∧ r.err = (if 0x0E ≤ (opField w).toNat then 2#2
      else if 0x03 ≤ (opField w).toNat ∧ (opField w).toNat ≤ 0x07 ∧ 64 ≤ (bField w).toNat then 1#2 else 0#2) := by
  rcases opcode_or_reserved (opField w) with ⟨m, hm⟩ | h
  · obtain ⟨r, hr, hcases⟩ := exec_ok_or_indexRange (m.instr (aField w) (bField w) (vField w))
    refine ⟨r, fun s => (blockStep_of_opcode hm s).trans (hr s), ?_⟩
    rw [hm, if_neg (Nat.not_le.mpr (opcode_toNat_lt m)), err_of_exec_instr hr hcases]
  · exact ⟨_, blockStep_of_reserved h, by rw [if_pos h]; rfl⟩

/-- Settles O35: `blockStep_err` gives the code, the lemmas about `err` say which response has it. -/
theorem errorCodeIsDecidedByOpcodeAndIndex : Obligations.ErrorCodeIsDecidedByOpcodeAndIndex := by
  refine ⟨fun w s => ?_, fun b => ?_⟩
  · obtain ⟨r, hr, herr⟩ := blockStep_err w
    exact ⟨r, hr s, herr, err_ne_three r, err_eq_zero_iff r, err_eq_one_iff r, err_eq_two_iff r⟩
  · rw [← Nat.not_lt, lt_64_iff_high_bits]

/-- Settles O36: the command of each opcode by `blockStep_of_opcode`, its response by `exec_response`. -/
theorem execDispatchesOnTheOpcode : Obligations.ExecDispatchesOnTheOpcode := by
  refine ⟨fun w s => ?_, fun i s => ?_⟩
  · rcases opcode_or_reserved (opField w) with ⟨m, hm⟩ | h
    · rw [blockStep_of_opcode hm, hm]
      cases m <;> rfl
    · rw [blockStep_of_reserved h]
      split
      case h_15 => rfl
      all_goals omega
  · obtain ⟨r, hr, ⟨a, rfl, rfl⟩ | ⟨-, y, rfl⟩ | rfl⟩ := exec_response i
    · exact ⟨_, hr s, .inl rfl, fun _ _ _ hne => (hne rfl).elim⟩
    · exact ⟨_, hr s, .inl rfl, fun _ _ he _ => (Response.ok.inj he).2.symm⟩
    · exact ⟨_, hr s, .inr rfl, fun _ _ he => by cases he⟩

/-! ### Index and amount -/

/-- Each of the five index commands checks the index `b` and then responds (R66). -/
theorem exec_indexCommand {a b : Word} {v : Byte} {i : Instr} (hi : i ∈ indexCommands a b v) :
    ∃ f : Fin 64 → Word, ∀ s, exec i s = withIndex b (fun k => respond (f k)) s := by
  simp only [indexCommands, List.mem_cons, List.not_mem_nil, or_false] at hi
  rcases hi with rfl | rfl | rfl | rfl | rfl <;> exact ⟨_, fun _ => rfl⟩

/-- The number in bits 5:0 (R48). -/
theorem toNat_low_bits (b : Word) : (b.extractLsb' 0 6).toNat = b.toNat % 64 := by
  rw [BitVec.extractLsb'_toNat, Nat.shiftRight_zero]

/-- A legal index is its own six low bits (R47). -/
theorem low_bits_of_lt {b : Word} (h : b.toNat < 64) : (b.extractLsb' 0 6).setWidth 64 = b := by
  apply BitVec.eq_of_toNat_eq
  rw [BitVec.toNat_setWidth, toNat_low_bits]
  omega

/-- Settles O32: below 64 `b` is its own six low bits, and `withIndex` tests the whole of it. -/
theorem indexIsTheWholeOfB : Obligations.IndexIsTheWholeOfB := by
  refine ⟨lt_64_iff_high_bits, fun a b v s hb => ⟨by rw [low_bits_of_lt hb], fun i hi => ?_⟩, fun a b v s hb i hi => ?_⟩
  · obtain ⟨f, hf⟩ := exec_indexCommand hi
    exact ⟨_, (hf s).trans (withIndex_of_lt hb _ s)⟩
  · obtain ⟨f, hf⟩ := exec_indexCommand hi
    exact (hf s).trans (withIndex_of_ge hb _ s)

/-- The amount depends on the six low bits alone (R48). -/
theorem amount_congr {b c : Word} (h : b.extractLsb' 0 6 = c.extractLsb' 0 6) : amount b = amount c := by
  apply Fin.ext
  rw [amount_val, amount_val, ← toNat_low_bits, ← toNat_low_bits, h]

theorem exec_ror (a b : Word) (s : State) : exec (.ror a b) s = .next (s.drive (.ok (rotateRight a (amount b)) 0)) := rfl

theorem exec_rol (a b : Word) (s : State) : exec (.rol a b) s = .next (s.drive (.ok (rotateLeft a (amount b)) 0)) := rfl

/-- Settles O33: both rotations look at `b` through `amount` only. -/
theorem amountIsBModSixtyFour : Obligations.AmountIsBModSixtyFour := by
  refine ⟨fun b => ⟨rfl, (toNat_low_bits b).symm⟩, fun a b c s h => ?_, fun a b s => ⟨?_, ?_⟩⟩
  · simp only [exec_ror, exec_rol, amount_congr h, and_self]
  · exact ⟨_, exec_ror a b s⟩
  · exact ⟨_, exec_rol a b s⟩

/-! ### The response word (R41) -/

/-- A 578-bit word is its three fields. -/
theorem responseFields_append (z : ResponseWord) :
    z.extractLsb' 576 2 ++ z.extractLsb' 64 512 ++ z.extractLsb' 0 64 = z := by
  have hhigh : z.extractLsb' 576 2 ++ z.extractLsb' 64 512 = z.extractLsb' 64 514 :=
    BitVec.extractLsb'_append_extractLsb'_eq_extractLsb' (by rfl)
  have hall : z.extractLsb' 64 514 ++ z.extractLsb' 0 64 = z.extractLsb' 0 578 :=
    BitVec.extractLsb'_append_extractLsb'_eq_extractLsb' (by rfl)
  rw [hhigh, hall, BitVec.extractLsb'_eq_self]

/-- The three fields of the word of a result. -/
theorem fields_resultWord (y : Word) (t : Txt) : ((0#2 : BitVec 2) ++ t ++ y).extractLsb' 0 64 = y
    ∧ ((0#2 : BitVec 2) ++ t ++ y).extractLsb' 64 512 = t ∧ ((0#2 : BitVec 2) ++ t ++ y).extractLsb' 576 2 = 0#2 := by
  refine ⟨?_, ?_, ?_⟩
  · exact BitVec.extractLsb'_append_eq_right
  · rw [BitVec.extractLsb'_append_eq_of_le (by decide)]
    exact BitVec.extractLsb'_append_eq_right
  · rw [BitVec.extractLsb'_append_eq_of_le (by decide)]
    exact BitVec.extractLsb'_append_eq_left

/-- The word that carries a result is the one made of its fields. -/
theorem carries_ok_iff_word? (y : Word) (t : Txt) (z : ResponseWord) :
    (Response.ok y t).Carries z ↔ (Response.ok y t).word? = some z := by
  rw [carries_ok_iff, Response.word?, Option.some.injEq]
  constructor
  · rintro ⟨rfl, rfl, herr⟩
    rw [← herr, responseFields_append]
  · rintro rfl
    exact fields_resultWord y t

/-- Character `j` of the rendering shows bit `63-j` (R87). -/
theorem txtChar_render (a : Word) {j : Nat} (hj : j < 64) : txtChar (render a) j = bitChar (a.getLsbD (63 - j)) := by
  apply BitVec.eq_of_getLsbD_eq
  intro k hk
  have hdiv : (8 * j + k) / 8 = j := by omega
  have hmod : (8 * j + k) % 8 = k := by omega
  rw [txtChar, BitVec.getLsbD_extractLsb', getLsbD_render, hdiv, hmod]
  simp [hk, show 8 * j + k < 512 by omega]

theorem bitChar_eq (bit : Bool) : bitChar bit = Config.ch0 ∨ bitChar bit = Config.ch1 := by
  cases bit
  · exact .inl rfl
  · exact .inr rfl

/-- Settles O37: the word of a result by `carries_ok_iff_word?`, of an error by `carries_error_iff`, and what stands in a
result by `exec_response`. -/
theorem responseWordLayout : Obligations.ResponseWordLayout := by
  refine ⟨carries_ok_iff_word?, fun y t => ⟨_, rfl, fields_resultWord y t⟩, fun e rest => ?_,
    fun e z => (carries_error_iff e z).mp, fun i y t h => ?_⟩
  · exact (carries_error_iff ..).mpr (BitVec.extractLsb'_append_eq_left ..)
  · obtain ⟨r, hr, hcases⟩ := exec_response i
    obtain rfl : r = .ok y t := Option.some.inj ((replyOf_of_exec (hr _)).symm.trans h)
    rcases hcases with ⟨a, rfl, he⟩ | ⟨hne, _, he⟩ | he <;> cases he
    · exact ⟨fun _ => ⟨rfl, fun j hj => txtChar_render a hj ▸ bitChar_eq _⟩, fun hne => absurd rfl hne⟩
    · exact ⟨fun hm => absurd hm hne, fun _ => rfl⟩

end Sys2Proof.Machine

/-! PROOFS. The family 30_encoding.md, the spelling of a command word (R39) and the assembler (R53, R54). -/

namespace Sys2Proof.Machine

/-! ### Hexadecimal digits -/

theorem digitValue_hexChar {d : Nat} (h : d < 16) : digitValue (hexChar d) = some d := by
  interval_cases d <;> rfl

theorem hexChar_ne_underscore {d : Nat} (h : d < 16) : hexChar d ≠ '_' := by
  interval_cases d <;> decide

/-- The characters that have a part in the layout of a line: blanks, comma and `#` (R53). -/
def isLayout (c : Char) : Bool := isBlank c || c == ',' || c == '#'

theorem isLayout_hexChar {d : Nat} (h : d < 16) : isLayout (hexChar d) = false := by
  interval_cases d <;> rfl

theorem hexDigits_length (k n : Nat) : (hexDigits k n).length = k := by
  induction k with
  | zero => rfl
  | succ k ih => simp [hexDigits, ih]

theorem isLayout_of_mem_hexDigits {k n : Nat} {c : Char} (h : c ∈ hexDigits k n) : isLayout c = false := by
  induction k with
  | zero => cases h
  | succ k ih =>
    rcases List.mem_cons.mp h with rfl | h
    · exact isLayout_hexChar (Nat.mod_lt _ (by decide))
    · exact ih h

/-- What stands above the last `k` digits does not show in them. -/
theorem hexDigits_mod (k n : Nat) {e : Nat} (h : k ≤ e) : hexDigits k (n % 16 ^ e) = hexDigits k n := by
  induction k with
  | zero => rfl
  | succ k ih =>
    have hdigit : n % 16 ^ e / 16 ^ k % 16 = n / 16 ^ k % 16 := by
      obtain ⟨d, rfl⟩ := Nat.exists_eq_add_of_le (show k + 1 ≤ e by omega)
      rw [Nat.pow_add, Nat.pow_succ, Nat.mul_assoc, Nat.mod_mul_right_div_self, Nat.mod_mul_right_mod]
    rw [hexDigits, hexDigits, hdigit, ih (by omega)]

/-- The first `j` of `j + k` digits are those of the number without its last `k`. -/
theorem hexDigits_add (j k n : Nat) : hexDigits (j + k) n = hexDigits j (n / 16 ^ k) ++ hexDigits k n := by
  induction j with
  | zero => simp [hexDigits]
  | succ j ih =>
    rw [Nat.succ_add, hexDigits, hexDigits, ih, Nat.div_div_eq_div_mul, ← Nat.pow_add, Nat.add_comm k j,
      List.cons_append]

/-- One digit read: the value so far moves up by a digit. -/
theorem readDigits_hexChar {d : Nat} (h : d < 16) (acc : Nat) (afterDigit : Bool) (cs : List Char) :
    readDigits 16 acc afterDigit (hexChar d :: cs) = readDigits 16 (acc * 16 + d) true cs := by
  simp [readDigits, hexChar_ne_underscore h, digitValue_hexChar h, h]

/-- Digits read after a digit: the value so far moves up by their number. -/
theorem readDigits_hexDigits (k n acc : Nat) :
    readDigits 16 acc true (hexDigits k n) = some (acc * 16 ^ k + n % 16 ^ k) := by
  induction k generalizing acc with
  | zero => simp [hexDigits, readDigits, Nat.mod_one]
  | succ k ih =>
    rw [hexDigits, readDigits_hexChar (Nat.mod_lt _ (by decide)), ih, Nat.mod_pow_succ, Nat.pow_succ]
    congr 1
    ring

/-- The same after any character, where there is a first digit. -/
theorem readDigits_hexDigits_succ (k n acc : Nat) (afterDigit : Bool) :
    readDigits 16 acc afterDigit (hexDigits (k + 1) n) = some (acc * 16 ^ (k + 1) + n % 16 ^ (k + 1)) := by
  have hdigit : n / 16 ^ k % 16 < 16 := Nat.mod_lt _ (by decide)
  rw [← readDigits_hexDigits, hexDigits, readDigits_hexChar hdigit, readDigits_hexChar hdigit]

/-- A literal of hexadecimal digits has the value that they spell (R53). -/
theorem readLiteral_hexDigits {k n : Nat} (hk : 0 < k) (hn : n < 16 ^ k) :
    readLiteral ('0' :: 'x' :: hexDigits k n) = some n := by
  obtain ⟨k, rfl⟩ := Nat.exists_eq_add_one.mpr hk
  rw [readLiteral, readDigits_hexDigits_succ, Nat.mod_eq_of_lt hn, Nat.zero_mul, Nat.zero_add]

/-! ### The spelling of a command word -/

/-- `k` digits of a field of a word that begins at digit `j`. -/
theorem hexDigits_extractLsb' {m : Nat} (x : BitVec m) (j k : Nat) :
    hexDigits k (x.extractLsb' (4 * j) (4 * k)).toNat = hexDigits k (x.toNat / 16 ^ j) := by
  rw [BitVec.extractLsb'_toNat, Nat.shiftRight_eq_div_pow, Nat.pow_mul, Nat.pow_mul]
  exact hexDigits_mod _ _ le_rfl

/-- The digits of a command word are those of op, v, b and a (R39). -/
theorem spellCommand_fields (w : CommandWord) :
    spellCommand w = ['0', 'x'] ++ hexDigits 2 (opField w).toNat ++ hexDigits 2 (vField w).toNat
      ++ hexDigits 16 (bField w).toNat ++ hexDigits 16 (aField w).toNat := by
  have ha : hexDigits 16 (aField w).toNat = hexDigits 16 (w.toNat / 16 ^ 0) := hexDigits_extractLsb' w 0 16
  have hb : hexDigits 16 (bField w).toNat = hexDigits 16 (w.toNat / 16 ^ 16) := hexDigits_extractLsb' w 16 16
  have hv : hexDigits 2 (vField w).toNat = hexDigits 2 (w.toNat / 16 ^ 32) := hexDigits_extractLsb' w 32 2
  have hop : hexDigits 2 (opField w).toNat = hexDigits 2 (w.toNat / 16 ^ 34) := hexDigits_extractLsb' w 34 2
  have hcut : spellCommand w = ['0', 'x'] ++ hexDigits (2 + (2 + (16 + 16))) w.toNat := rfl
  rw [hcut, hexDigits_add, hexDigits_add, hexDigits_add, ha, hb, hv, hop]
  simp

/-- Settles O6: `readLiteral_hexDigits` reads the spelling back, `spellCommand_fields` cuts it into the fields. -/
theorem spelledCommandWordReadsBack : Obligations.SpelledCommandWordReadsBack := by
  refine ⟨fun w => ⟨?_, ?_, spellCommand_fields w⟩, by decide, by decide⟩
  · simp [spellCommand, hexDigits_length]
  · exact readLiteral_hexDigits (by decide) w.isLt

/-! ### Operand values to an instruction -/

/-- The operand fields that a command uses: none, `a`, `a` and `b`, or all three (R44). -/
theorem operands_cases (m : Mnemonic) : m.operands = [] ∨ m.operands = [.a] ∨ m.operands = [.a, .b]
    ∨ m.operands = [.a, .b, .v] := by
  cases m <;> decide

/-- The assembler answers an instruction only for values of the right count that fit, and then this one (R53). -/
theorem assembleValues_eq_ok_iff {m : Mnemonic} {vals : List Nat} {i : Instr} :
    assembleValues m vals = .ok i ↔ (vals.length = m.operands.length ∧ ∀ p ∈ m.operands.zip vals, p.2 < 2 ^ p.1.width)
      ∧ i = m.instr (BitVec.ofNat 64 (vals.getD 0 0)) (BitVec.ofNat 64 (vals.getD 1 0))
        (BitVec.ofNat 8 (vals.getD 2 0)) := by
  constructor
  · intro h
    by_cases hfit : vals.length = m.operands.length ∧ ∀ p ∈ m.operands.zip vals, p.2 < 2 ^ p.1.width
    · rw [assembleValues_of_fits hfit.1 hfit.2] at h
      exact ⟨hfit, (Except.ok.inj h).symm⟩
    · unfold assembleValues at h
      split at h
      · cases h
      · next hlen =>
        rw [if_neg (by simpa [not_not.mp hlen] using hfit)] at h
        cases h
  · rintro ⟨⟨hlen, hfit⟩, rfl⟩
    exact assembleValues_of_fits hlen hfit

/-- Fitting values stand unchanged in the fields of the instruction, with 0 where none is given (R53). -/
theorem operands_of_fits {m : Mnemonic} {vals : List Nat} {i : Instr} (h : assembleValues m vals = .ok i) :
    i.aOperand.toNat = vals.getD 0 0 ∧ i.bOperand.toNat = vals.getD 1 0 ∧ i.vOperand.toNat = vals.getD 2 0 := by
  obtain ⟨⟨hlen, hfit⟩, rfl⟩ := assembleValues_eq_ok_iff.mp h
  rw [aOperand_instr, bOperand_instr, vOperand_instr]
  rcases operands_cases m with hm | hm | hm | hm <;> rw [hm] at hlen hfit ⊢
  · obtain rfl := List.length_eq_zero_iff.mp hlen
    simp
  · obtain ⟨a, rfl⟩ := List.length_eq_one_iff.mp hlen
    simp_all [Field.width]
  · obtain ⟨a, b, rfl⟩ := List.length_eq_two.mp hlen
    simp_all [Field.width]
  · obtain ⟨a, b, v, rfl⟩ := List.length_eq_three.mp hlen
    simp_all [Field.width]

/-- Settles O57: `assembleValues_eq_ok_iff` says when there is an instruction, `operands_of_fits` what it holds. -/
theorem assemblerAcceptsExactlyTheFittingOperands : Obligations.AssemblerAcceptsExactlyTheFittingOperands := by
  refine fun m vals => ⟨?_, fun i h => ⟨?_, canonical_encode i, ?_⟩⟩
  · simp only [assembleValues_eq_ok_iff, exists_and_left, exists_eq, and_true]
  · obtain ⟨-, rfl⟩ := assembleValues_eq_ok_iff.mp h
    exact mnemonic_instr ..
  · rw [aField_encode, bField_encode, vField_encode]
    exact operands_of_fits h

/-! ### The parts of a line -/

/-- A piece of a line that is read whole: not empty, and with no blank, comma or `#` in it. -/
def IsPiece (cs : List Char) : Prop := cs ≠ [] ∧ ∀ c ∈ cs, isLayout c = false

theorem IsPiece.isBlank_eq_false {cs : List Char} (h : IsPiece cs) : ∀ c ∈ cs, isBlank c = false := by
  intro c hc
  by_contra hblank
  simpa [isLayout, hblank] using h.2 c hc

theorem IsPiece.ne_comma {cs : List Char} (h : IsPiece cs) : ∀ c ∈ cs, c ≠ ',' := by
  rintro _ hc rfl
  exact absurd (h.2 _ hc) (by decide)

theorem IsPiece.ne_hash {cs : List Char} (h : IsPiece cs) : ∀ c ∈ cs, c ≠ '#' := by
  rintro _ hc rfl
  exact absurd (h.2 _ hc) (by decide)

theorem isPiece_mnemonicText (m : Mnemonic) : IsPiece (mnemonicText m) := by
  have hne : (mnemonicText m).isEmpty = false := by cases m <;> rfl
  have hall : (mnemonicText m).all (fun c => !isLayout c) = true := by cases m <;> rfl
  exact ⟨by simpa using hne, by simpa using hall⟩

theorem isPiece_hexLiteral (k n : Nat) : IsPiece ('0' :: 'x' :: hexDigits k n) := by
  refine ⟨by simp, fun c hc => ?_⟩
  rcases List.mem_cons.mp hc with rfl | hc
  · rfl
  · rcases List.mem_cons.mp hc with rfl | hc
    · rfl
    · exact isLayout_of_mem_hexDigits hc

theorem isPiece_fieldText (i : Instr) (f : Field) : IsPiece (fieldText i f) := by
  cases f <;> exact isPiece_hexLiteral ..

/-- Text that begins and ends with no blank has none to take off. -/
theorem trimBlanks_of_ends {cs : List Char} (hhead : ∀ c ∈ cs.head?, isBlank c = false)
    (hlast : ∀ c ∈ cs.getLast?, isBlank c = false) : trimBlanks cs = cs := by
  have hfront : ∀ {l : List Char}, (∀ c ∈ l.head?, isBlank c = false) → l.dropWhile isBlank = l := by
    intro l hl
    cases l with
    | nil => rfl
    | cons c l => exact List.dropWhile_cons_of_neg (by simp [hl c rfl])
  rw [trimBlanks, hfront hhead, hfront (by simpa using hlast), List.reverse_reverse]

theorem trimBlanks_blank_cons (cs : List Char) : trimBlanks (' ' :: cs) = trimBlanks cs := by
  rw [trimBlanks, List.dropWhile_cons_of_pos (by rfl), ← trimBlanks]

theorem dropComment_of_forall_ne {cs : List Char} (h : ∀ c ∈ cs, c ≠ '#') : dropComment cs = cs :=
  List.takeWhile_eq_self_iff.mpr (by simpa using h)

theorem splitCommas_of_forall_ne {cs : List Char} (h : ∀ c ∈ cs, c ≠ ',') : splitCommas cs = [cs] := by
  induction cs with
  | nil => rfl
  | cons c cs ih =>
    obtain ⟨hc, hcs⟩ := List.forall_mem_cons.mp h
    simp [splitCommas, hc, ih hcs]

theorem splitCommas_append_comma {cs : List Char} (h : ∀ c ∈ cs, c ≠ ',') (rest : List Char) :
    splitCommas (cs ++ ',' :: rest) = cs :: splitCommas rest := by
  induction cs with
  | nil => simp [splitCommas]
  | cons c cs ih =>
    obtain ⟨hc, hcs⟩ := List.forall_mem_cons.mp h
    simp [splitCommas, hc, ih hcs]

/-! ### The text of the operands -/

theorem ne_hash_of_mem_operandsText {i : Instr} {before : List Char} (hb : ∀ c ∈ before, c ≠ '#') {fs : List Field} :
    ∀ c ∈ operandsText i before fs, c ≠ '#' := by
  induction fs generalizing before with
  | nil => simp [operandsText]
  | cons f fs ih =>
    simp only [operandsText, List.forall_mem_append]
    exact ⟨⟨hb, (isPiece_fieldText i f).ne_hash⟩, ih (by simp)⟩

/-- A piece and the operands behind it end with no blank. -/
theorem getLast?_append_operandsText {i : Instr} {cs before : List Char} {fs : List Field}
    (h : ∀ c ∈ cs.getLast?, isBlank c = false) : ∀ c ∈ (cs ++ operandsText i before fs).getLast?, isBlank c = false := by
  induction fs generalizing cs before with
  | nil => simpa [operandsText] using h
  | cons f fs ih =>
    have hpiece := isPiece_fieldText i f
    rw [operandsText, ← List.append_assoc, ← List.append_assoc]
    refine ih fun c hc => ?_
    rw [List.getLast?_append_of_ne_nil _ hpiece.1] at hc
    exact hpiece.isBlank_eq_false c (List.mem_of_getLast? hc)

/-- A piece and the operands behind it have no blanks around them. -/
theorem trimBlanks_append_operandsText {cs : List Char} (h : IsPiece cs) (i : Instr) (before : List Char)
    (fs : List Field) : trimBlanks (cs ++ operandsText i before fs) = cs ++ operandsText i before fs := by
  refine trimBlanks_of_ends (fun c hc => ?_) (getLast?_append_operandsText fun c hc => ?_)
  · rw [List.head?_append_of_ne_nil _ h.1] at hc
    exact h.isBlank_eq_false c (List.mem_of_head? hc)
  · exact h.isBlank_eq_false c (List.mem_of_getLast? hc)

theorem trimBlanks_fieldText (i : Instr) (f : Field) : trimBlanks (fieldText i f) = fieldText i f := by
  simpa [operandsText] using trimBlanks_append_operandsText (isPiece_fieldText i f) i [] []

/-- Between commas stand the fields, a blank before each. -/
theorem splitCommas_operandsText (i : Instr) (f : Field) (fs : List Field) :
    splitCommas (operandsText i [' '] (f :: fs)) = (f :: fs).map (fun g => ' ' :: fieldText i g) := by
  have hpiece : ∀ g, ∀ c ∈ ' ' :: fieldText i g, c ≠ ',' := fun g =>
    List.forall_mem_cons.mpr ⟨by decide, (isPiece_fieldText i g).ne_comma⟩
  induction fs generalizing f with
  | nil => simpa [operandsText] using splitCommas_of_forall_ne (hpiece f)
  | cons g fs ih =>
    have hcomma : operandsText i [' '] (f :: g :: fs) = (' ' :: fieldText i f) ++ ',' :: operandsText i [' '] (g :: fs) :=
      rfl
    rw [hcomma, splitCommas_append_comma (hpiece f), ih]
    rfl

/-- The value that an operand field of an instruction holds. -/
def fieldValue (i : Instr) : Field → Nat
  | .a => i.aOperand.toNat
  | .b => i.bOperand.toNat
  | .v => i.vOperand.toNat

theorem fieldValue_lt (i : Instr) (f : Field) : fieldValue i f < 2 ^ f.width := by
  cases f <;> exact BitVec.isLt _

theorem readOperand_fieldText (i : Instr) (f : Field) : readOperand (fieldText i f) = some (.lit (fieldValue i f)) := by
  have hread : readLiteral (fieldText i f) = some (fieldValue i f) := by
    cases f with
    | a | b => exact readLiteral_hexDigits (by decide) (BitVec.isLt _)
    | v => exact readLiteral_hexDigits (by decide) (BitVec.isLt _)
  have hlit : readOperand (fieldText i f) = (readLiteral (fieldText i f)).map Operand.lit := by
    cases f <;> rfl
  rw [hlit, hread, Option.map_some]

theorem readOperands_operandsText (i : Instr) (fs : List Field) :
    readOperands (operandsText i [' '] fs) = .ok (fs.map (fun f => .lit (fieldValue i f))) := by
  cases fs with
  | nil => rfl
  | cons f fs =>
    have hne : (trimBlanks (operandsText i [' '] (f :: fs))).isEmpty = false := by
      have htext : operandsText i [' '] (f :: fs) = ' ' :: (fieldText i f ++ operandsText i [',', ' '] fs) := rfl
      rw [htext, trimBlanks_blank_cons, trimBlanks_append_operandsText (isPiece_fieldText i f)]
      simp [(isPiece_fieldText i f).1]
    have hread : ∀ g, readOperand (trimBlanks (' ' :: fieldText i g)) = some (.lit (fieldValue i g)) := fun g => by
      rw [trimBlanks_blank_cons, trimBlanks_fieldText, readOperand_fieldText]
    have hall : (splitCommas (operandsText i [' '] (f :: fs))).mapM (fun p => readOperand (trimBlanks p))
        = some ((f :: fs).map (fun g => .lit (fieldValue i g))) := by
      rw [splitCommas_operandsText, List.mapM_map]
      simp only [Function.comp_def, hread]
      exact List.mapM_pure
    rw [readOperands, hne, hall]
    rfl

/-! ### The whole line -/

theorem mnemonicOfText_mnemonicText (m : Mnemonic) : mnemonicOfText (mnemonicText m) = some m := by
  cases m <;> rfl

/-- The first word of a line is its mnemonic, and the operands stand behind it. -/
theorem span_instrText (i : Instr) : (instrText i).takeWhile (fun c => !isBlank c) = mnemonicText i.mnemonic
    ∧ (instrText i).dropWhile (fun c => !isBlank c) = operandsText i [' '] i.mnemonic.operands := by
  have hword : ∀ c ∈ mnemonicText i.mnemonic, (!isBlank c) = true := fun c hc => by
    rw [(isPiece_mnemonicText _).isBlank_eq_false c hc]
    rfl
  rw [instrText, List.takeWhile_append_of_pos hword, List.dropWhile_append_of_pos hword]
  cases i.mnemonic.operands with
  | nil => simp [operandsText]
  | cons f fs => simp [operandsText, isBlank]

/-- The line of an instruction is read as its mnemonic and its operands' values. -/
theorem readCommandText_instrText (i : Instr) :
    readCommandText (instrText i) = .ok ⟨i.mnemonic, i.mnemonic.operands.map (fun f => .lit (fieldValue i f))⟩ := by
  have hcomment : dropComment (instrText i) = instrText i := dropComment_of_forall_ne <|
    List.forall_mem_append.mpr ⟨(isPiece_mnemonicText _).ne_hash, ne_hash_of_mem_operandsText (by simp)⟩
  have hbody : trimBlanks (instrText i) = instrText i := trimBlanks_append_operandsText (isPiece_mnemonicText _) ..
  obtain ⟨hword, hoperands⟩ := span_instrText i
  simp [readCommandText, hcomment, hbody, hword, hoperands, mnemonicOfText_mnemonicText, readOperands_operandsText]

/-- An instruction's own operand values are assembled to it (R53). -/
theorem assembleValues_fieldValues (i : Instr) :
    assembleValues i.mnemonic (i.mnemonic.operands.map (fieldValue i)) = .ok i := by
  refine assembleValues_eq_ok_iff.mpr ⟨⟨List.length_map _, fun p hp => ?_⟩, ?_⟩
  · have hzip := List.zip_map' (f := id) (g := fieldValue i) (l := i.mnemonic.operands)
    rw [List.map_id] at hzip
    obtain ⟨f, -, rfl⟩ := List.mem_map.mp (hzip ▸ hp)
    exact fieldValue_lt i f
  · refine (instr_operands i).symm.trans ?_
    rcases operands_cases i.mnemonic with hm | hm | hm | hm <;>
      exact instr_congr (by simp [hm, fieldValue]) (by simp [hm, fieldValue]) (by simp [hm, fieldValue])

/-- Settles O58: `readCommandText_instrText` reads the line, `assembleValues_fieldValues` assembles what is read. -/
theorem assemblerReadsEveryCommandBack : Obligations.AssemblerReadsEveryCommandBack := by
  intro i
  have hvals : (i.mnemonic.operands.map (fun f => Operand.lit (fieldValue i f))).mapM literalValue
      = some (i.mnemonic.operands.map (fieldValue i)) := by
    rw [List.mapM_map]
    exact List.mapM_pure
  simp only [assembleText, readCommandText_instrText, hvals, assembleValues_fieldValues]

end Sys2Proof.Machine

/-! PROOFS. The family 30_encoding.md, scripts (R55): what a line sends, and the lines still to be sent stay well formed. -/

namespace Sys2Proof.Machine

/-- A line of values that fit is built to their instruction (R53, R55). -/
theorem buildScript_of_fits {record : List Exchange} {m : Mnemonic} {ops : List Operand} {vals : List Nat}
    (hvals : ops.mapM (operandValue record) = some vals) (hlen : vals.length = m.operands.length)
    (hfit : ∀ p ∈ m.operands.zip vals, p.2 < 2 ^ p.1.width) :
    buildScript record ⟨m, ops⟩ = .ok (m.instr (BitVec.ofNat 64 (vals.getD 0 0)) (BitVec.ofNat 64 (vals.getD 1 0))
      (BitVec.ofNat 8 (vals.getD 2 0))) := by
  rw [buildScript, hvals]
  exact assembleValues_of_fits hlen hfit

/-- The response to line `j + 1` is entry `j` of the script's record (R55). -/
theorem lineResponse_succ {record : List Exchange} {j : Nat} {x : Exchange} (h : record[j]? = some x) :
    lineResponse record (j + 1) = some x.rsp := by
  rw [lineResponse, h, Option.map_some]

/-- Settles O49: the line comes first, so `fetch_script` sends what `buildScript_of_fits` builds. -/
theorem scriptLineSendsItsCommand : Obligations.ScriptLineSendsItsCommand := by
  refine ⟨fun s k m ops ls vals hp hn hvals hlen hfit => ?_, operandValue_lit, fun record j w y t o h => ⟨?_, ?_, ?_⟩,
    fun record j w e o h => ⟨?_, ?_, ?_⟩⟩
  · obtain ⟨r, ha, hs⟩ := step_of_fetch (fetch_script hp hn (buildScript_of_fits hvals hlen hfit))
    exact ⟨_, r, rfl, ha, hs⟩
  · exact operandValue_ref h rfl
  · simp [lineTxt, lineResponse_succ h, Response.txt?]
  · simp [lineErr, lineResponse_succ h, Response.err]
  · simp [operandValue, lineY, lineResponse_succ h, Response.y?]
  · simp [lineTxt, lineResponse_succ h, Response.txt?]
  · simp [lineErr, lineResponse_succ h, Response.err]

/-- An exchange of another script, or of a literal word, adds nothing to script `k`'s record. -/
theorem scriptLog_singleton (k : Nat) (x : Exchange) : scriptLog k [x] = if x.script = some k then [x] else [] := by
  by_cases h : x.script = some k <;> simp [scriptLog, h]

/-- Sending a line and recording its exchange moves the script's next number up with its next line (R55). -/
theorem scriptSound_of_sent {s t : State} {before after : List Line} {l : Line} {x : Exchange} (hs : s.ScriptSound)
    (hp : s.pending = before ++ l :: after) (hbefore : ∀ z ∈ before, z.script? ≠ l.script?)
    (hpending : t.pending = before ++ after) (hlog : t.log = s.log ++ [x]) (hx : x.script = l.script?) :
    t.ScriptSound := by
  intro k
  have hsound := hs k
  rw [hp, scriptLines_append] at hsound
  rw [hpending, hlog, scriptLog_append, scriptLog_singleton, scriptLines_append, hx]
  by_cases hk : l.script? = some k
  · have hnil : scriptLines k before = [] := scriptLines_of_forall_ne (hk ▸ hbefore)
    obtain ⟨c, rfl⟩ : ∃ c, l = .script k c := by
      cases l with
      | word w => cases hk
      | script j c => cases hk; exact ⟨c, rfl⟩
    have hcons : scriptLines k (.script k c :: after) = c :: scriptLines k after := if_pos rfl
    rw [hnil, List.nil_append, hcons, scriptWellFormed, Bool.and_eq_true] at hsound
    rw [if_pos hk, hnil, List.nil_append, List.length_append]
    exact hsound.2
  · rw [scriptLines_cons_of_ne hk] at hsound
    rw [if_neg hk, List.append_nil]
    exact hsound

/-- Settles O54: a step sends one line and records its exchange (`step_next`, `fetch_next`), which keeps the rest well
formed (`scriptSound_of_sent`). -/
theorem stepKeepsTheScriptSound : Obligations.StepKeepsTheScriptSound := by
  intro s t hs hstep
  obtain ⟨f, r, hf, -, rfl⟩ := step_next hstep
  obtain ⟨before, l, after, hp, hrest, hscript, -, hbefore⟩ := fetch_next hf
  exact ⟨scriptSound_of_sent hs hp hbefore hrest rfl hscript, before, l, after, _, hp, hrest, rfl, hscript⟩

end Sys2Proof.Machine

/-! PROOFS. The family 30_encoding.md, scalar results (R50): the population-count tree counts (42_popcount.md R70), so its
7 bits hold 0 to 64. -/

namespace Sys2Proof.Machine

/-! ### Counting the 1 bits of a stretch -/

/-- The 1 bits of a stretch are those of its two parts. -/
theorem onesIn_add (x : Word) (lo m n : Nat) : onesIn x lo (m + n) = onesIn x lo m + onesIn x (lo + m) n := by
  simp [onesIn, List.range_add, List.countP_map, Function.comp_def, Nat.add_assoc]

theorem onesIn_le (x : Word) (lo n : Nat) : onesIn x lo n ≤ n :=
  List.countP_le_length.trans_eq List.length_range

theorem onesIn_zero_sixtyFour (x : Word) : onesIn x 0 64 = popcount x := by
  simp [onesIn, popcount]

theorem popcount_le (x : Word) : popcount x ≤ 64 :=
  onesIn_zero_sixtyFour x ▸ onesIn_le x 0 64

/-! ### Lanes of a sum -/

/-- Digits whose sums stay below the base carry nothing out of the lower `p` places. -/
theorem mod_pow_add_mod_pow_lt {B : Nat} (u v p : Nat) (h : ∀ q < p, u / B ^ q % B + v / B ^ q % B < B) :
    u % B ^ p + v % B ^ p < B ^ p := by
  induction p with
  | zero => simp [Nat.mod_one]
  | succ p ih =>
    have hlow := ih fun q hq => h q (by omega)
    have hdigit := h p (by omega)
    calc u % B ^ (p + 1) + v % B ^ (p + 1)
        = (u % B ^ p + v % B ^ p) + B ^ p * (u / B ^ p % B + v / B ^ p % B) := by
          rw [Nat.mod_pow_succ, Nat.mod_pow_succ]; ring
      _ < B ^ p * (u / B ^ p % B + v / B ^ p % B + 1) := by rw [Nat.mul_succ, Nat.add_comm]; omega
      _ ≤ B ^ (p + 1) := by rw [Nat.pow_succ]; exact Nat.mul_le_mul_left _ hdigit

/-- Then the digits of the sum are the sums of the digits. -/
theorem digit_add {B : Nat} (u v p : Nat) (h : ∀ q ≤ p, u / B ^ q % B + v / B ^ q % B < B) :
    (u + v) / B ^ p % B = u / B ^ p % B + v / B ^ p % B := by
  have hlow := mod_pow_add_mod_pow_lt u v p fun q hq => h q (Nat.le_of_lt hq)
  rw [Nat.add_div (Nat.zero_lt_of_lt hlow), if_neg (Nat.not_le.mpr hlow), Nat.add_zero, Nat.add_mod,
    Nat.mod_eq_of_lt (h p le_rfl)]

theorem lane_toNat (w p : Nat) (x : Word) : (lane w p x).toNat = x.toNat / (2 ^ w) ^ p % 2 ^ w := by
  rw [lane, BitVec.extractLsb'_toNat, Nat.shiftRight_eq_div_pow, Nat.pow_mul]

theorem getLsbD_lane (w p : Nat) (x : Word) (k : Nat) :
    (lane w p x).getLsbD k = (decide (k < w) && x.getLsbD (w * p + k)) := by
  rw [lane, BitVec.getLsbD_extractLsb']

/-- A lane beyond the word is empty. -/
theorem lane_of_ge {w p : Nat} (h : 64 ≤ w * p) (x : Word) : (lane w p x).toNat = 0 := by
  rw [lane_toNat, ← Nat.pow_mul, Nat.div_eq_of_lt (x.isLt.trans_le (Nat.pow_le_pow_right Nat.two_pos h)), Nat.zero_mod]

/-- Where no lane overflows, the lanes of a sum are the sums of the lanes. -/
theorem lane_add {w p : Nat} {x y : Word} (hp : w * p + w ≤ 64)
    (h : ∀ q ≤ p, (lane w q x).toNat + (lane w q y).toNat < 2 ^ w) :
    (lane w p (x + y)).toNat = (lane w p x).toNat + (lane w p y).toNat := by
  have hpow : 2 ^ 64 = (2 ^ w) ^ p * (2 ^ w * 2 ^ (64 - (w * p + w))) := by
    rw [← Nat.pow_mul, ← Nat.pow_add, ← Nat.pow_add]
    congr 1
    omega
  simp only [lane_toNat] at h ⊢
  rw [BitVec.toNat_add, hpow, Nat.mod_mul_right_div_self, Nat.mod_mul_right_mod, digit_add _ _ _ h]

/-! ### The pairwise stages -/

/-- Every lane of width `w` of `y` holds the number of 1 bits of `x` it covers (R70). -/
def LanesCount (w : Nat) (x y : Word) : Prop := ∀ p, w * p + w ≤ 64 → (lane w p y).toNat = onesIn x (w * p) w

/-- The mask of a pairwise stage has the lower half of each lane of width `2w` (R69). -/
def MasksLowHalves (w : Nat) (m : Word) : Prop := ∀ i < 64, m.getLsbD i = decide (i % (2 * w) < w)

/-- A masked lane is its lower half. -/
theorem lane_and_mask {w p : Nat} {m : Word} (hm : MasksLowHalves w m) (hp : 2 * w * p + 2 * w ≤ 64) (x : Word) :
    (lane (2 * w) p (x &&& m)).toNat = (lane w (2 * p) x).toNat := by
  have hlane : lane (2 * w) p (x &&& m) = (lane w (2 * p) x).setWidth (2 * w) := by
    apply BitVec.eq_of_getLsbD_eq
    intro k hk
    have hmod : (2 * w * p + k) % (2 * w) = k := by rw [Nat.mul_add_mod, Nat.mod_eq_of_lt hk]
    rw [getLsbD_lane, BitVec.getLsbD_and, hm _ (by omega), hmod, BitVec.getLsbD_setWidth, getLsbD_lane,
      show w * (2 * p) = 2 * w * p by ring]
    simp [hk, Bool.and_comm]
  rw [hlane, BitVec.toNat_setWidth_of_le (by omega)]

/-- A shift by whole lanes moves the lanes down. -/
theorem lane_shr {w d : Nat} {k : Fin 64} (hk : k.val = w * d) (p : Nat) (x : Word) :
    lane w p (shr x k) = lane w (p + d) x := by
  apply BitVec.eq_of_getLsbD_eq
  intro i hi
  rw [getLsbD_lane, getLsbD_lane, getLsbD_shr, hk]
  congr 2
  ring

/-- A pairwise stage doubles the width of the lanes that count (R70). -/
theorem lanesCount_pairSum {w : Nat} {x y m : Word} {k : Fin 64} (hw : 0 < w) (hk : k.val = w)
    (hm : MasksLowHalves w m) (h : LanesCount w x y) : LanesCount (2 * w) x (pairSum m k y) := by
  intro p hp
  have hroom : 2 ^ w + 2 ^ w ≤ 2 ^ (2 * w) := by
    rw [← Nat.two_mul, ← Nat.pow_succ']
    exact Nat.pow_le_pow_right Nat.two_pos (by omega)
  have hwidth : ∀ q ≤ p, 2 * w * q + 2 * w ≤ 64 := fun q hq =>
    (Nat.add_le_add_right (Nat.mul_le_mul_left _ hq) _).trans hp
  have hlow : ∀ q ≤ p, (lane (2 * w) q (y &&& m)).toNat = (lane w (2 * q) y).toNat := fun q hq =>
    lane_and_mask hm (hwidth q hq) y
  have hhigh : ∀ q ≤ p, (lane (2 * w) q (shr y k &&& m)).toNat = (lane w (2 * q + 1) y).toNat := fun q hq => by
    rw [lane_and_mask hm (hwidth q hq), lane_shr (d := 1) (by omega)]
  rw [pairSum, lane_add hp, hlow p le_rfl, hhigh p le_rfl, h _ (by linarith), h _ (by linarith), Nat.two_mul w,
    onesIn_add]
  · congr 2 <;> ring
  · intro q hq
    rw [hlow q hq, hhigh q hq]
    have := (lane w (2 * q) y).isLt
    have := (lane w (2 * q + 1) y).isLt
    omega

/-- A bit counts itself. -/
theorem lanesCount_one (x : Word) : LanesCount 1 x x := by
  intro p _
  have hone : onesIn x (1 * p) 1 = (x.getLsbD p).toNat := by
    cases h : x.getLsbD p <;> simp [onesIn, h]
  rw [lane_toNat, hone, BitVec.getLsbD, Nat.toNat_testBit, Nat.pow_one]

theorem lanesCount_swarT1 (x : Word) : LanesCount 2 x (swarT1 x) :=
  lanesCount_pairSum (w := 1) (by decide) rfl (by unfold MasksLowHalves; decide) (lanesCount_one x)

theorem lanesCount_swarT2 (x : Word) : LanesCount 4 x (swarT2 x) :=
  lanesCount_pairSum (w := 2) (by decide) rfl (by unfold MasksLowHalves; decide) (lanesCount_swarT1 x)

theorem lanesCount_swarT3 (x : Word) : LanesCount 8 x (swarT3 x) :=
  lanesCount_pairSum (w := 4) (by decide) rfl (by unfold MasksLowHalves; decide) (lanesCount_swarT2 x)

/-! ### The horizontal stages -/

/-- Every byte lane of the word holds at most `n`. -/
def LanesAtMost (n : Nat) (y : Word) : Prop := ∀ p, (lane 8 p y).toNat ≤ n

/-- A horizontal stage adds to each byte lane the lane `d` above it, where the lanes leave room (R69). -/
theorem lane_foldSum {n d p : Nat} {k : Fin 64} {y : Word} (hk : k.val = 8 * d) (hy : LanesAtMost n y) (hn : n < 128)
    (hp : p < 8) : (lane 8 p (foldSum k y)).toNat = (lane 8 p y).toNat + (lane 8 (p + d) y).toNat := by
  rw [foldSum, lane_add (by omega), lane_shr hk]
  intro q _
  rw [lane_shr hk]
  have := hy q
  have := hy (q + d)
  omega

theorem lanesAtMost_foldSum {n d : Nat} {k : Fin 64} {y : Word} (hk : k.val = 8 * d) (hy : LanesAtMost n y)
    (hn : n < 128) : LanesAtMost (n + n) (foldSum k y) := by
  intro p
  by_cases hp : p < 8
  · rw [lane_foldSum hk hy hn hp]
    exact Nat.add_le_add (hy p) (hy (p + d))
  · rw [lane_of_ge (by omega)]
    exact Nat.zero_le _

theorem lanesAtMost_swarT3 (x : Word) : LanesAtMost 8 (swarT3 x) := by
  intro p
  by_cases hp : p < 8
  · rw [lanesCount_swarT3 x p (by omega)]
    exact onesIn_le ..
  · rw [lane_of_ge (by omega)]
    exact Nat.zero_le _

theorem lanesAtMost_swarT4 (x : Word) : LanesAtMost 16 (swarT4 x) :=
  lanesAtMost_foldSum (d := 1) rfl (lanesAtMost_swarT3 x) (by decide)

theorem lanesAtMost_swarT5 (x : Word) : LanesAtMost 32 (swarT5 x) :=
  lanesAtMost_foldSum (d := 2) rfl (lanesAtMost_swarT4 x) (by decide)

/-- Byte lane `p` of `t4` holds the count of two bytes (R70). -/
theorem lane_swarT4 (x : Word) {p : Nat} (hp : p < 7) : (lane 8 p (swarT4 x)).toNat = onesIn x (8 * p) 16 := by
  rw [swarT4, lane_foldSum (d := 1) rfl (lanesAtMost_swarT3 x) (by decide) (by omega), lanesCount_swarT3 x p (by omega),
    lanesCount_swarT3 x (p + 1) (by omega), Nat.mul_add, ← onesIn_add x (8 * p) 8 8]

/-- Byte lane `p` of `t5` holds the count of four bytes (R70). -/
theorem lane_swarT5 (x : Word) {p : Nat} (hp : p < 5) : (lane 8 p (swarT5 x)).toNat = onesIn x (8 * p) 32 := by
  rw [swarT5, lane_foldSum (d := 2) rfl (lanesAtMost_swarT4 x) (by decide) (by omega), lane_swarT4 x (by omega),
    lane_swarT4 x (by omega), Nat.mul_add, ← onesIn_add x (8 * p) 16 16]

/-- Byte lane 0 of `t6` holds the count of all eight bytes (R70). -/
theorem lane_swarT6 (x : Word) : (lane 8 0 (swarT6 x)).toNat = popcount x := by
  rw [swarT6, lane_foldSum (d := 4) rfl (lanesAtMost_swarT5 x) (by decide) (by decide), lane_swarT5 x (by decide),
    lane_swarT5 x (by decide), ← onesIn_zero_sixtyFour, ← onesIn_add x 0 32 32]

/-- The tree counts the 1 bits (R71). -/
theorem swarCount_toNat (x : Word) : (swarCount x).toNat = popcount x := by
  have hlane := lane_swarT6 x
  have hle := popcount_le x
  have hmask : (swarCount x).toNat = (swarT6 x).toNat % 2 ^ 7 := by
    rw [swarCount, BitVec.toNat_setWidth, BitVec.toNat_and]
    exact (congrArg (· % 2 ^ 7) (Nat.and_two_pow_sub_one_eq_mod _ 7)).trans (Nat.mod_mod _ _)
  rw [lane_toNat] at hlane
  omega

/-! ### Scalars in y -/

theorem yOf_of_exec {i : Instr} {y : Word} {t : Txt} (h : exec i State.reset = .next (State.reset.drive (.ok y t))) :
    yOf i = some y := by
  rw [yOf, replyOf_of_exec h]
  rfl

/-- A bit number is a legal index, and the one it says (R47). -/
theorem withIndex_idx (i : Fin 64) (k : Fin 64 → State → Host.Outcome State Fault Refusal) (s : State) :
    withIndex (idx i) k s = k i s := by
  have hi : (idx i).toNat = i.val := by
    rw [idx, BitVec.toNat_ofNat]
    omega
  rw [withIndex_of_lt (hi ▸ i.isLt)]
  simp only [hi]

/-- GET at a bit number answers the bit (R64). -/
theorem yOf_get (a : Word) (i : Fin 64) : yOf (.get a (idx i)) = some (shr a i &&& 1#64) :=
  yOf_of_exec (withIndex_idx ..)

theorem yOf_cnton (a : Word) : yOf (.cnton a) = some (zext64 (swarCount a)) := rfl

theorem yOf_cntoff (a : Word) : yOf (.cntoff a) = some (zext64 (64#7 - swarCount a)) := rfl

theorem zext64_toNat {n : Nat} (h : n ≤ 64) (x : BitVec n) : (zext64 x).toNat = x.toNat :=
  BitVec.toNat_setWidth_of_le h

/-- A number below `2^lo` has no bit from `lo` up. -/
theorem extractLsb'_eq_zero_of_lt {y : Word} {lo : Nat} (h : y.toNat < 2 ^ lo) (len : Nat) :
    y.extractLsb' lo len = 0 := by
  apply BitVec.eq_of_toNat_eq
  rw [BitVec.extractLsb'_toNat, Nat.shiftRight_eq_div_pow, Nat.div_eq_of_lt h]
  simp

/-- CNTOFF's 7-bit difference does not wrap (R72). -/
theorem cntoff_toNat (a : Word) : (64#7 - swarCount a).toNat = 64 - popcount a := by
  have hle := popcount_le a
  rw [BitVec.toNat_sub, swarCount_toNat, BitVec.toNat_ofNat]
  omega

/-- Settles O34: a masked bit is below 2; `swarCount_toNat` and `cntoff_toNat` bound the counts. -/
theorem scalarResultsAreZeroExtended : Obligations.ScalarResultsAreZeroExtended := by
  refine ⟨fun a i => ⟨_, yOf_get a i, extractLsb'_eq_zero_of_lt ?_ _, ?_⟩,
    fun a => ⟨_, yOf_cnton a, extractLsb'_eq_zero_of_lt ?_ _, ?_⟩,
    fun a => ⟨_, yOf_cntoff a, extractLsb'_eq_zero_of_lt ?_ _, ?_⟩⟩
  · rw [BitVec.toNat_and]
    exact Nat.and_lt_two_pow _ (by decide)
  · rw [BitVec.getLsbD_and, getLsbD_shr, Nat.add_zero]
    exact Bool.and_true _
  · rw [zext64_toNat (by decide)]
    exact BitVec.isLt _
  · rw [zext64_toNat (by decide), swarCount_toNat]
    exact ⟨rfl, popcount_le a⟩
  · rw [zext64_toNat (by decide)]
    exact BitVec.isLt _
  · rw [zext64_toNat (by decide), cntoff_toNat]

end Sys2Proof.Machine

/-! PROOFS. The family 40_constructors.md: SETALL, RSTALL and RAW (R57 to R59) and their laws (R60). -/

namespace Sys2Proof.Machine

/-! ### The three constructors -/

theorem exec_setall (s : State) : exec .setall s = .next (s.drive (.ok 0xFFFFFFFFFFFFFFFF#64 0)) := rfl

theorem exec_rstall (s : State) : exec .rstall s = .next (s.drive (.ok 0x0000000000000000#64 0)) := rfl

theorem exec_raw (a : Word) (s : State) : exec (.raw a) s = .next (s.drive (.ok a 0)) := rfl

/-- Settles O10: the opcode selects SETALL, which has no operand to look at. -/
theorem setallGivesAllOnes : Obligations.SetallGivesAllOnes :=
  ⟨exec_setall, by decide, fun _ s hop => (blockStep_of_opcode (m := .setall) hop s).trans (exec_setall s)⟩

/-- Settles O11: the opcode selects RSTALL, which has no operand to look at. -/
theorem rstallGivesZero : Obligations.RstallGivesZero :=
  ⟨exec_rstall, by decide, fun _ s hop => (blockStep_of_opcode (m := .rstall) hop s).trans (exec_rstall s)⟩

/-- Settles O12: the opcode selects RAW, whose one operand is the field `a`. -/
theorem rawGivesItsOperand : Obligations.RawGivesItsOperand :=
  ⟨exec_raw, fun _ => rfl, fun w s hop => (blockStep_of_opcode (m := .raw) hop s).trans (exec_raw (aField w) s)⟩

/-! ### Their laws -/

/-- The mathematical count stands for the tree in CNTON's `y` (R71). -/
theorem yOf_cnton_popcount (a : Word) : yOf (.cnton a) = some (BitVec.ofNat 64 (popcount a)) := by
  rw [yOf_cnton, ← swarCount_toNat, zext64, BitVec.ofNat_toNat]

theorem popcount_allOnes : popcount 0xFFFFFFFFFFFFFFFF#64 = 64 := by
  have hbit : ∀ i ∈ List.range 64, (BitVec.allOnes 64).getLsbD i = true := fun i hi => by
    rw [BitVec.getLsbD_allOnes, decide_eq_true (List.mem_range.mp hi)]
  exact (List.countP_eq_length.mpr hbit).trans List.length_range

theorem popcount_zero : popcount 0#64 = 0 := by
  rw [popcount, List.countP_eq_zero]
  intro i _
  rw [BitVec.getLsbD_zero]
  exact Bool.false_ne_true

/-- Settles O38: all ones and 0 are complements with 64 and no 1 bits, and at a legal index every command has a result
(`replyOf_instr_ok_iff`). -/
theorem constructorLaws : Obligations.ConstructorLaws := by
  refine ⟨fun x => yOf_of_exec (exec_raw x _), ⟨_, _, yOf_of_exec (exec_setall _), yOf_of_exec (exec_rstall _),
    by decide, ?_, ?_⟩, fun m c b v hb => (replyOf_instr_ok_iff m c b v).mpr fun _ => hb⟩
  · rw [yOf_cnton_popcount, popcount_allOnes]
  · rw [yOf_cnton_popcount, popcount_zero]

end Sys2Proof.Machine

/-! PROOFS. The family 41_bit_ops.md: SETON, SETOFF, SET, GET and FLIP (R61 to R65) and their laws (R67). -/

namespace Sys2Proof.Machine

/-! ### The bits of the results -/

/-- Bit `i` complemented (R65): FLIP's result, as `bitOn` and `bitOff` are SETON's and SETOFF's. -/
def bitFlip (a : Word) (i : Fin 64) : Word := a ^^^ oneHot i

/-- Bit `j` of FLIP's result (R65). -/
theorem getLsbD_bitFlip (a : Word) (i : Fin 64) (j : Nat) :
    (bitFlip a i).getLsbD j = (a.getLsbD j ^^ decide (j = i.val)) := by
  rw [bitFlip, BitVec.getLsbD_xor, getLsbD_oneHot]

theorem getLsbD_bitOn_self (a : Word) (i : Fin 64) : (bitOn a i).getLsbD i = true := by
  rw [getLsbD_bitOn, decide_eq_true rfl, Bool.or_true]

theorem getLsbD_bitOff_self (a : Word) (i : Fin 64) : (bitOff a i).getLsbD i = false := by
  rw [getLsbD_bitOff, decide_eq_true rfl, Bool.not_true, Bool.and_false]

theorem getLsbD_bitFlip_self (a : Word) (i : Fin 64) : (bitFlip a i).getLsbD i = !a.getLsbD i := by
  rw [getLsbD_bitFlip, decide_eq_true rfl, Bool.xor_true]

theorem getLsbD_bitOn_of_ne (a : Word) {i : Fin 64} {j : Nat} (h : j ≠ i) : (bitOn a i).getLsbD j = a.getLsbD j := by
  simp [getLsbD_bitOn, h]

theorem getLsbD_bitOff_of_ne (a : Word) {i : Fin 64} {j : Nat} (h : j ≠ i) : (bitOff a i).getLsbD j = a.getLsbD j := by
  simp [getLsbD_bitOff, h]

theorem getLsbD_bitFlip_of_ne (a : Word) {i : Fin 64} {j : Nat} (h : j ≠ i) : (bitFlip a i).getLsbD j = a.getLsbD j := by
  simp [getLsbD_bitFlip, h]

/-- The bit that GET shifts down and masks (R64). -/
theorem shr_and_one (a : Word) (i : Fin 64) : shr a i &&& 1#64 = if a.getLsbD i then 1#64 else 0#64 := by
  rw [BitVec.and_one_eq_setWidth_ofBool_getLsbD, getLsbD_shr, Nat.add_zero]
  cases a.getLsbD i <;> rfl

/-- SETON again changes nothing. -/
theorem bitOn_bitOn (a : Word) (i : Fin 64) : bitOn (bitOn a i) i = bitOn a i := by
  rw [bitOn, bitOn, BitVec.or_assoc, BitVec.or_self]

/-- SETOFF again changes nothing. -/
theorem bitOff_bitOff (a : Word) (i : Fin 64) : bitOff (bitOff a i) i = bitOff a i := by
  rw [bitOff, bitOff, BitVec.and_assoc, BitVec.and_self]

/-- FLIP is its own inverse. -/
theorem bitFlip_bitFlip (a : Word) (i : Fin 64) : bitFlip (bitFlip a i) i = a := by
  rw [bitFlip, bitFlip, BitVec.xor_assoc, BitVec.xor_self, BitVec.xor_zero]

/-- Of all ones, SETOFF leaves all ones but the bit. -/
theorem bitOff_allOnes (i : Fin 64) : bitOff (BitVec.allOnes 64) i = BitVec.allOnes 64 ^^^ oneHot i := by
  rw [bitOff, BitVec.allOnes_and, BitVec.allOnes_xor]

/-! ### The five commands -/

/-- An index command at a bad index answers IndexRange (R66). -/
theorem exec_indexCommand_of_ge {a b : Word} {v : Byte} {i : Instr} (hi : i ∈ indexCommands a b v)
    (hb : 64 ≤ b.toNat) (s : State) : exec i s = .next (s.drive (.error .indexRange)) := by
  obtain ⟨f, hf⟩ := exec_indexCommand hi
  exact (hf s).trans (withIndex_of_ge hb _ s)

theorem exec_seton {b : Word} (hb : b.toNat < 64) (a : Word) (s : State) :
    exec (.seton a b) s = .next (s.drive (.ok (bitOn a ⟨b.toNat, hb⟩) 0)) := withIndex_of_lt hb _ s

theorem exec_setoff {b : Word} (hb : b.toNat < 64) (a : Word) (s : State) :
    exec (.setoff a b) s = .next (s.drive (.ok (bitOff a ⟨b.toNat, hb⟩) 0)) := withIndex_of_lt hb _ s

theorem exec_get {b : Word} (hb : b.toNat < 64) (a : Word) (s : State) :
    exec (.get a b) s = .next (s.drive (.ok (shr a ⟨b.toNat, hb⟩ &&& 1#64) 0)) := withIndex_of_lt hb _ s

theorem exec_flip {b : Word} (hb : b.toNat < 64) (a : Word) (s : State) :
    exec (.flip a b) s = .next (s.drive (.ok (bitFlip a ⟨b.toNat, hb⟩) 0)) := withIndex_of_lt hb _ s

/-- SET dispatches on the whole of `v`, at every index (R63). -/
theorem exec_set (a b : Word) (v : Byte) (s : State) :
    exec (.set a b v) s = if v ≠ 0#8 then exec (.seton a b) s else exec (.setoff a b) s := by
  change execSet a b v s = _
  rw [execSet, valueNonzero_eq]
  by_cases hv : v = 0#8
  · rw [if_neg (not_not.mpr hv), decide_eq_false (not_not.mpr hv)]
    rfl
  · rw [if_pos hv, decide_eq_true hv]
    rfl

/-- Settles O13: the result is `bitOn` at the index. -/
theorem setonForcesTheBitToOne : Obligations.SetonForcesTheBitToOne :=
  ⟨fun a _ s hb => ⟨_, exec_seton hb a s, rfl, getLsbD_bitOn_self a ⟨_, hb⟩, fun _ _ hj => getLsbD_bitOn_of_ne a hj⟩,
    fun _ _ s hb => withIndex_of_ge hb _ s, fun _ _ => rfl, fun _ s hop => blockStep_of_opcode (m := .seton) hop s⟩

/-- Settles O14: the result is `bitOff` at the index. -/
theorem setoffForcesTheBitToZero : Obligations.SetoffForcesTheBitToZero := by
  refine ⟨fun a _ s hb => ⟨_, exec_setoff hb a s, rfl, getLsbD_bitOff_self a ⟨_, hb⟩,
    fun _ _ hj => getLsbD_bitOff_of_ne a hj, ?_⟩,
    fun _ _ s hb => withIndex_of_ge hb _ s, fun _ _ => rfl, fun _ s hop => blockStep_of_opcode (m := .setoff) hop s⟩
  rintro rfl
  exact bitOff_allOnes ⟨_, hb⟩

/-- Settles O15: at a good index SET is SETON or SETOFF (`exec_set`), so O13 and O14 give its result. -/
theorem setChoosesByTheWholeValue : Obligations.SetChoosesByTheWholeValue := by
  refine ⟨fun a b v s hb => ?_, fun _ _ _ s hb => withIndex_of_ge hb _ s, fun _ _ _ => rfl,
    fun _ s hop => blockStep_of_opcode (m := .set) hop s⟩
  rw [exec_set]
  by_cases hv : v = 0#8
  · obtain ⟨y, hexec, hy, hself, hother, -⟩ := setoffForcesTheBitToZero.1 a b s hb
    simp only [hv, ne_eq, not_true_eq_false, if_false, decide_false]
    exact ⟨y, hexec, hy, hself, hother⟩
  · simp only [hv, ne_eq, not_false_eq_true, if_true, decide_true]
    exact setonForcesTheBitToOne.1 a b s hb

/-- Settles O16: the masked shift is the bit (`shr_and_one`). -/
theorem getReadsTheBit : Obligations.GetReadsTheBit :=
  ⟨fun a _ s hb => ⟨_, exec_get hb a s, rfl, shr_and_one a ⟨_, hb⟩⟩,
    fun _ _ s hb => withIndex_of_ge hb _ s, fun _ _ => rfl, fun _ s hop => blockStep_of_opcode (m := .get) hop s⟩

/-- Settles O17: the result is `bitFlip` at the index. -/
theorem flipComplementsTheBit : Obligations.FlipComplementsTheBit := by
  refine ⟨fun a _ s hb => ⟨_, exec_flip hb a s, rfl, getLsbD_bitFlip_self a ⟨_, hb⟩,
    fun _ _ hj => getLsbD_bitFlip_of_ne a hj, ?_⟩,
    fun _ _ s hb => withIndex_of_ge hb _ s, fun _ _ => rfl, fun _ s hop => blockStep_of_opcode (m := .flip) hop s⟩
  rw [exec_flip hb, bitFlip_bitFlip]
  rfl

/-! ### Their laws: the results at a bit number -/

theorem yOf_seton (a : Word) (i : Fin 64) : yOf (.seton a (idx i)) = some (bitOn a i) :=
  yOf_of_exec (withIndex_idx ..)

theorem yOf_setoff (a : Word) (i : Fin 64) : yOf (.setoff a (idx i)) = some (bitOff a i) :=
  yOf_of_exec (withIndex_idx ..)

theorem yOf_flip (a : Word) (i : Fin 64) : yOf (.flip a (idx i)) = some (bitFlip a i) :=
  yOf_of_exec (withIndex_idx ..)

theorem yOf_get_bit (a : Word) (i : Fin 64) : yOf (.get a (idx i)) = some (if a.getLsbD i then 1#64 else 0#64) := by
  rw [yOf_get, shr_and_one]

/-- GET sees its one bit only. -/
theorem yOf_get_congr {x y : Word} {j : Fin 64} (h : x.getLsbD j = y.getLsbD j) :
    yOf (.get x (idx j)) = yOf (.get y (idx j)) := by
  rw [yOf_get_bit, yOf_get_bit, h]

theorem yOf_congr {i k : Instr} (h : exec i State.reset = exec k State.reset) : yOf i = yOf k := by
  rw [yOf, yOf, replyOf, replyOf, h]

/-- SET answers as SETON or SETOFF does, whatever its index (R63). -/
theorem yOf_set (a b : Word) (v : Byte) :
    yOf (.set a b v) = if v ≠ 0#8 then yOf (.seton a b) else yOf (.setoff a b) := by
  split
  · exact yOf_congr ((exec_set ..).trans (if_pos ‹_›))
  · exact yOf_congr ((exec_set ..).trans (if_neg ‹_›))

/-! ### Their laws: the count -/

/-- Words that agree on a stretch have as many 1 bits there. -/
theorem onesIn_congr {x y : Word} {lo n : Nat} (h : ∀ k < n, x.getLsbD (lo + k) = y.getLsbD (lo + k)) :
    onesIn x lo n = onesIn y lo n :=
  List.countP_congr fun k hk => by rw [h k (List.mem_range.mp hk)]

theorem onesIn_one (x : Word) (lo : Nat) : onesIn x lo 1 = (x.getLsbD lo).toNat := by
  cases h : x.getLsbD lo <;> simp [onesIn, h]

/-- The 1 bits of a word are those below bit `i`, bit `i`, and those above it. -/
theorem popcount_eq_around (x : Word) (i : Fin 64) :
    popcount x = onesIn x 0 i + (x.getLsbD i).toNat + onesIn x (i + 1) (63 - i) := by
  calc popcount x = onesIn x 0 (i + 1 + (63 - i)) := by rw [← onesIn_zero_sixtyFour]; congr 1; omega
    _ = _ := by rw [onesIn_add, onesIn_add, Nat.zero_add, Nat.zero_add, onesIn_one]

/-- The counts of two words that agree but at bit `i` differ as that bit does. -/
theorem popcount_add_bit {x y : Word} {i : Fin 64} (h : ∀ j : Nat, j ≠ i → y.getLsbD j = x.getLsbD j) :
    popcount y + (x.getLsbD i).toNat = popcount x + (y.getLsbD i).toNat := by
  have hbelow : onesIn y 0 i = onesIn x 0 i := onesIn_congr fun k hk => h _ (by omega)
  have habove : onesIn y (i + 1) (63 - i) = onesIn x (i + 1) (63 - i) := onesIn_congr fun k hk => h _ (by omega)
  rw [popcount_eq_around x i, popcount_eq_around y i, hbelow, habove]
  omega

theorem popcount_bitOn (a : Word) (i : Fin 64) : popcount (bitOn a i) + (a.getLsbD i).toNat = popcount a + 1 := by
  have hcount := popcount_add_bit (i := i) fun _ hj => getLsbD_bitOn_of_ne a hj
  rwa [getLsbD_bitOn_self] at hcount

theorem popcount_bitFlip (a : Word) (i : Fin 64) :
    popcount (bitFlip a i) = popcount a + 1 ∨ popcount a = popcount (bitFlip a i) + 1 := by
  have hcount := popcount_add_bit (i := i) fun _ hj => getLsbD_bitFlip_of_ne a hj
  rw [getLsbD_bitFlip_self] at hcount
  generalize a.getLsbD i = bit at hcount
  cases bit with
  | false => exact .inl hcount
  | true => exact .inr hcount.symm

theorem toNat_ofNat_popcount (x : Word) : (BitVec.ofNat 64 (popcount x)).toNat = popcount x := by
  have := popcount_le x
  rw [BitVec.toNat_ofNat]
  omega

/-- `popcount_bitOn` on the words that CNTON and GET answer. -/
theorem ofNat_popcount_bitOn (a : Word) (i : Fin 64) : BitVec.ofNat 64 (popcount (bitOn a i))
    = BitVec.ofNat 64 (popcount a) + 1#64 - if a.getLsbD i then 1#64 else 0#64 := by
  have hbit : (if a.getLsbD i then 1#64 else 0#64) = BitVec.ofNat 64 (a.getLsbD i).toNat := by
    cases a.getLsbD i <;> rfl
  rw [hbit]
  apply eq_sub_of_add_eq
  rw [← BitVec.ofNat_add, popcount_bitOn, BitVec.ofNat_add]

/-- Settles O39: the laws of `bitOn`, `bitOff` and `bitFlip`, read through GET (`yOf_get_bit`) and CNTON. -/
theorem singleBitLaws : Obligations.SingleBitLaws := by
  refine ⟨fun i j hj => ⟨_, yOf_setoff _ i, ?_, ?_⟩, fun a i j hj => ?_, fun a i v => yOf_set a (idx i) v,
    fun a b v hb i hi => ?_⟩
  · rw [yOf_get_bit, getLsbD_bitOff_self]
    rfl
  · have hone : (BitVec.allOnes 64).getLsbD j = true := by rw [BitVec.getLsbD_allOnes, decide_eq_true j.isLt]
    rw [yOf_get_bit, getLsbD_bitOff_of_ne _ (Fin.val_ne_of_ne hj)]
    exact congrArg some (if_pos hone)
  · have hne : j.val ≠ i.val := Fin.val_ne_of_ne hj
    refine ⟨_, _, _, _, yOf_seton a i, yOf_setoff a i, yOf_flip a i, yOf_get_bit a i, ?_, ?_, ?_,
      yOf_get_congr (getLsbD_bitOn_of_ne a hne), yOf_get_congr (getLsbD_bitOff_of_ne a hne),
      yOf_get_congr (getLsbD_bitFlip_of_ne a hne), ?_, ?_, ?_, _, _, _, yOf_cnton_popcount a, yOf_cnton_popcount _,
      yOf_cnton_popcount _, ofNat_popcount_bitOn a i, ?_⟩
    · rw [yOf_get_bit, getLsbD_bitOn_self, if_pos rfl]
    · rw [yOf_get_bit, getLsbD_bitOff_self]
      rfl
    · rw [yOf_get_bit, getLsbD_bitFlip_self]
      cases a.getLsbD i <;> rfl
    · rw [yOf_flip, bitFlip_bitFlip]
    · rw [yOf_seton, bitOn_bitOn]
    · rw [yOf_setoff, bitOff_bitOff]
    · rw [toNat_ofNat_popcount, toNat_ofNat_popcount]
      exact popcount_bitFlip a i
  · have hreply : replyOf i = some (.error .indexRange) := replyOf_of_exec (exec_indexCommand_of_ge hi hb _)
    rw [yOf, txtOf, hreply]
    exact ⟨rfl, rfl, rfl⟩

end Sys2Proof.Machine

/-! PROOFS. The family 42_popcount.md: the tree and its other forms (R69 to R71), CNTON and CNTOFF (R68, R72) and the
laws of the count (R73). -/

namespace Sys2Proof.Machine

/-! ### The tree's stages -/

theorem exec_cnton (a : Word) (s : State) : exec (.cnton a) s = .next (s.drive (.ok (zext64 (swarCount a)) 0)) := rfl

theorem exec_cntoff (a : Word) (s : State) :
    exec (.cntoff a) s = .next (s.drive (.ok (zext64 (64#7 - swarCount a)) 0)) := rfl

/-- Settles O18: the rule's stages are the model's by definition. -/
theorem countCommandsRunTheTree : Obligations.CountCommandsRunTheTree := by
  refine ⟨?_, exec_cnton, exec_cntoff⟩
  rintro x _ _ _ _ _ _ rfl rfl rfl rfl rfl rfl
  rfl

/-- Settles O20: the lanes of each stage count (`lanesCount_pairSum`, `lane_foldSum`). -/
theorem swarLanesHoldTheirCounts : Obligations.SwarLanesHoldTheirCounts := by
  refine ⟨fun x p => ⟨fun hp => ?_, fun hp => ?_, fun hp => ?_⟩,
    fun x => ⟨lane_swarT4 x (by decide), lane_swarT5 x (by decide), ?_⟩, by decide⟩
  · exact lanesCount_swarT1 x p (by omega)
  · exact lanesCount_swarT2 x p (by omega)
  · exact lanesCount_swarT3 x p (by omega)
  · rw [lane_swarT6, onesIn_zero_sixtyFour]

/-! ### The other forms of the stages -/

/-- Twice the odd bits moved down are the odd bits in their place. -/
theorem odd_add_odd (x : Word) : (shr x 1 &&& 0x5555555555555555#64) + (shr x 1 &&& 0x5555555555555555#64)
    = x &&& ~~~0x5555555555555555#64 := by
  have hmask : ∀ i < 63, (0x5555555555555555#64).getLsbD i = !(0x5555555555555555#64).getLsbD (i + 1) := by decide
  have htwice : ∀ y : Word, y + y = y <<< 1 := fun y =>
    BitVec.mul_two.symm.trans (BitVec.shiftLeft_eq_mul_twoPow y 1).symm
  rw [htwice]
  apply BitVec.eq_of_getLsbD_eq
  intro i hi
  rw [BitVec.getLsbD_shiftLeft, BitVec.getLsbD_and, BitVec.getLsbD_and, BitVec.getLsbD_not, getLsbD_shr]
  cases i with
  | zero => exact (Bool.and_false _).symm
  | succ j =>
    rw [Nat.add_sub_cancel, hmask j (by omega), Fin.val_one, Nat.add_comm 1 j]
    simp [hi]

/-- A word is the sum of its bits under a mask and its other bits. -/
theorem and_add_and_not (x m : Word) : (x &&& m) + (x &&& ~~~m) = x := by
  have hdisjoint : (x &&& m) &&& (x &&& ~~~m) = 0#64 := by
    rw [BitVec.and_assoc, BitVec.and_comm x (~~~m), ← BitVec.and_assoc m, BitVec.and_not_self]
    exact (congrArg _ BitVec.zero_and).trans BitVec.and_zero
  rw [BitVec.add_eq_or_of_and_eq_zero _ _ hdisjoint, ← BitVec.and_or_distrib_left, BitVec.or_not_self,
    BitVec.and_allOnes]

/-- Taking the odd bits once from a word leaves the sum of its even bits and its odd bits (R71). -/
theorem altT1_eq_swarT1 (x : Word) : altT1 x = swarT1 x := by
  apply sub_eq_of_eq_add
  rw [swarT1, pairSum, BitVec.add_assoc, odd_add_odd, and_add_and_not]

/-- The lanes are the whole word: two words whose lanes count the same bits are equal. -/
theorem LanesCount.unique {w : Nat} {x y z : Word} (hw : w ∣ 64) (hy : LanesCount w x y) (hz : LanesCount w x z) :
    y = z := by
  apply BitVec.eq_of_getLsbD_eq
  intro i hi
  have hpos : 0 < w := Nat.pos_of_dvd_of_pos hw (by decide)
  have hroom : w * (i / w) + w ≤ 64 := by
    obtain ⟨n, hn⟩ := hw
    rw [← Nat.mul_succ, hn]
    exact Nat.mul_le_mul_left _ (Nat.div_lt_of_lt_mul (hn ▸ hi))
  have hlane : lane w (i / w) y = lane w (i / w) z := BitVec.eq_of_toNat_eq ((hy _ hroom).trans (hz _ hroom).symm)
  have hbit : ∀ u : Word, (lane w (i / w) u).getLsbD (i % w) = u.getLsbD i := fun u => by
    rw [getLsbD_lane, Nat.div_add_mod, decide_eq_true (Nat.mod_lt _ hpos), Bool.true_and]
  rw [← hbit y, hlane, hbit z]

theorem lane_swarT2_le (x : Word) (p : Nat) : (lane 4 p (swarT2 x)).toNat ≤ 4 := by
  by_cases hp : p < 16
  · rw [lanesCount_swarT2 x p (by omega)]
    exact onesIn_le ..
  · rw [lane_of_ge (by omega)]
    exact Nat.zero_le _

/-- A sum of two counts of 4 bits fits a lane of 4 bits, so the mask may come after the sum (R71). -/
theorem lanesCount_altT3 (x : Word) : LanesCount 8 x (altT3 (swarT2 x)) := by
  intro p hp
  have hmask : MasksLowHalves 4 0x0f0f0f0f0f0f0f0f#64 := by unfold MasksLowHalves; decide
  have hshift : ∀ q, lane 4 q (shr (swarT2 x) 4) = lane 4 (q + 1) (swarT2 x) := fun q => lane_shr (d := 1) rfl q _
  have hfits : ∀ q ≤ 2 * p, (lane 4 q (swarT2 x)).toNat + (lane 4 q (shr (swarT2 x) 4)).toNat < 2 ^ 4 := by
    intro q _
    have := lane_swarT2_le x q
    have := lane_swarT2_le x (q + 1)
    rw [hshift]
    omega
  calc (lane 8 p (altT3 (swarT2 x))).toNat
      = (lane 4 (2 * p) (swarT2 x + shr (swarT2 x) 4)).toNat := lane_and_mask (w := 4) hmask hp _
    _ = (lane 4 (2 * p) (swarT2 x)).toNat + (lane 4 (2 * p + 1) (swarT2 x)).toNat := by
      rw [lane_add (by omega) hfits, hshift]
    _ = onesIn x (4 * (2 * p)) 4 + onesIn x (4 * (2 * p) + 4) 4 := by
      rw [lanesCount_swarT2 x _ (by omega), lanesCount_swarT2 x _ (by omega), Nat.mul_succ]
    _ = onesIn x (8 * p) 8 := by
      rw [← onesIn_add, ← Nat.mul_assoc]

/-- Settles O19: the two first stages are one sum (`altT1_eq_swarT1`), the two third stages count in the same lanes
(`lanesCount_altT3`). -/
theorem swarTreeCountsEveryWord : Obligations.SwarTreeCountsEveryWord :=
  fun x => ⟨yOf_cnton_popcount x, swarCount_toNat x, altT1_eq_swarT1 x,
    (lanesCount_altT3 x).unique (by decide) (lanesCount_swarT3 x)⟩

/-! ### CNTON and CNTOFF -/

theorem zext64_swarCount (a : Word) : zext64 (swarCount a) = BitVec.ofNat 64 (popcount a) := by
  rw [← swarCount_toNat, zext64, BitVec.ofNat_toNat]

theorem zext64_cntoff (a : Word) : zext64 (64#7 - swarCount a) = BitVec.ofNat 64 (64 - popcount a) := by
  rw [← cntoff_toNat, zext64, BitVec.ofNat_toNat]

/-- A count leaves bits 63:7 of `y` 0 (R50). -/
theorem extractLsb'_ofNat_of_le {n : Nat} (h : n ≤ 64) : (BitVec.ofNat 64 n : Word).extractLsb' 7 57 = 0 := by
  refine extractLsb'_eq_zero_of_lt ?_ _
  rw [BitVec.toNat_ofNat]
  omega

/-- Settles O21: the tree counts (`zext64_swarCount`). -/
theorem cntonCountsOneBits : Obligations.CntonCountsOneBits :=
  ⟨fun a s => zext64_swarCount a ▸ exec_cnton a s,
    fun a => ⟨popcount_le a, extractLsb'_ofNat_of_le (popcount_le a), (zext64_swarCount a).symm⟩,
    fun _ => rfl, fun _ s hop => blockStep_of_opcode (m := .cnton) hop s⟩

/-- The indices of the 1 bits and those of the 0 bits are all 64. -/
theorem popcount_add_zeros (a : Word) : popcount a + (List.range 64).countP (fun i => !a.getLsbD i) = 64 := by
  have hsplit := (List.range 64).length_eq_countP_add_countP (fun i => a.getLsbD i)
  rw [List.length_range] at hsplit
  simp only [Bool.not_eq_true, Bool.decide_eq_false] at hsplit
  exact hsplit.symm

theorem popcount_not_eq_zeros (a : Word) : popcount (~~~a) = (List.range 64).countP (fun i => !a.getLsbD i) :=
  List.countP_congr fun i hi => by
    rw [BitVec.getLsbD_not, decide_eq_true (List.mem_range.mp hi), Bool.true_and]

theorem popcount_not (a : Word) : popcount (~~~a) = 64 - popcount a := by
  have := popcount_add_zeros a
  rw [popcount_not_eq_zeros]
  omega

/-- Settles O22: the 7-bit difference does not wrap (`zext64_cntoff`), and what is not a 1 bit of `a` is one of `~a`
(`popcount_not`). -/
theorem cntoffCountsZeroBits : Obligations.CntoffCountsZeroBits := by
  refine ⟨fun a s => ⟨zext64_cntoff a ▸ exec_cntoff a s, ?_⟩,
    fun a => ⟨popcount_le a, (popcount_not a).symm.trans (popcount_not_eq_zeros a),
      extractLsb'_ofNat_of_le (Nat.sub_le ..)⟩,
    fun _ => rfl, fun _ s hop => blockStep_of_opcode (m := .cntoff) hop s⟩
  rw [exec_cntoff, exec_cnton, zext64_cntoff, zext64_swarCount, popcount_not]

/-! ### The laws of the count -/

theorem popcount_eq_zero_iff (x : Word) : popcount x = 0 ↔ x = 0#64 := by
  refine ⟨fun h => BitVec.eq_of_getLsbD_eq fun i hi => ?_, fun h => h ▸ popcount_zero⟩
  rw [BitVec.getLsbD_zero]
  exact Bool.eq_false_iff.mpr (List.countP_eq_zero.mp h i (List.mem_range.mpr hi))

theorem popcount_eq_sixtyFour_iff (x : Word) : popcount x = 64 ↔ x = 0xFFFFFFFFFFFFFFFF#64 := by
  refine ⟨fun h => BitVec.eq_of_getLsbD_eq fun i hi => ?_, fun h => h ▸ popcount_allOnes⟩
  have hone := List.countP_eq_length.mp (h.trans List.length_range.symm) i (List.mem_range.mpr hi)
  exact hone.trans (BitVec.getLsbD_allOnes.trans (decide_eq_true hi)).symm

/-- Moving the bits to other indices keeps the count. -/
theorem popcount_of_perm {x y : Word} (σ : Equiv.Perm (Fin 64)) (h : ∀ i : Fin 64, y.getLsbD i = x.getLsbD (σ i)) :
    popcount y = popcount x := by
  have hfin : ∀ z : Word, popcount z = (List.finRange 64).countP (fun i : Fin 64 => z.getLsbD i) := fun z => by
    rw [popcount, ← List.map_coe_finRange_eq_range, List.countP_map]
    rfl
  calc popcount y = (List.finRange 64).countP (fun i : Fin 64 => x.getLsbD (σ i)) := by rw [hfin]; simp only [h]
    _ = ((List.finRange 64).map σ).countP (fun i : Fin 64 => x.getLsbD i) := List.countP_map.symm
    _ = popcount x := by rw [σ.map_finRange_perm.countP_eq, hfin]

/-- The bit of the rotator (R80). -/
theorem getLsbD_rotateRight (x : Word) (s i : Fin 64) : (rotateRight x s).getLsbD i = x.getLsbD ((i + s) % 64) := by
  by_cases hs : s.val = 0
  · rw [rotateRight_zero x hs, hs, Nat.add_zero, Nat.mod_eq_of_lt i.isLt]
  · rw [rotateRight_shifts x hs, BitVec.getLsbD_or, BitVec.getLsbD_ushiftRight, BitVec.getLsbD_shiftLeft]
    by_cases hi : i.val + s.val < 64
    · have hlow : i.val < 64 - s.val := by omega
      rw [Nat.mod_eq_of_lt hi, Nat.add_comm s.val]
      simp [hlow]
    · have hwrap : (i.val + s.val) % 64 = i.val - (64 - s.val) := by omega
      have hhigh : ¬ i.val < 64 - s.val := by omega
      rw [hwrap, BitVec.getLsbD_of_ge x _ (by omega)]
      simp [hhigh]

theorem popcount_rotateRight (x : Word) (s : Fin 64) : popcount (rotateRight x s) = popcount x :=
  popcount_of_perm (Equiv.addRight s) (getLsbD_rotateRight x s)

theorem popcount_rotateLeft (x : Word) (s : Fin 64) : popcount (rotateLeft x s) = popcount x :=
  popcount_rotateRight x _

/-- What the masks of a stage of width `w` let through to each index `i`: the right mask alone the bit `w` below, or the
left mask alone the bit `w` above, the one whose index is `i` xor `w` (R76, R77). -/
theorem swapStages_masks : ∀ st ∈ swapStages, ∀ i : Fin 64,
    (st.width.val ≤ i ∧ i.val ^^^ st.width = i - st.width ∧ st.rightMask.getLsbD (i - st.width) = true
        ∧ st.leftMask.getLsbD (st.width + i) = false)
      ∨ ((i.val < st.width.val ∨ st.rightMask.getLsbD (i - st.width) = false) ∧ i.val ^^^ st.width = st.width + i
        ∧ st.leftMask.getLsbD (st.width + i) = true) := by decide

/-- A stage of width `w` brings to index `i` the bit at `i` xor `w` (R77). -/
theorem getLsbD_swapStage {st : SwapStage} (hst : st ∈ swapStages) (x : Word) (i : Fin 64) :
    (swapBlocks st.width st.rightMask st.leftMask x).getLsbD i = x.getLsbD (i ^^^ st.width) := by
  rw [getLsbD_swapBlocks]
  obtain ⟨hle, hxor, hright, hleft⟩ | ⟨hright, hxor, hleft⟩ := swapStages_masks st hst i
  · have hnot : ¬ i.val < st.width := Nat.not_lt.mpr hle
    simp [hxor, hright, hleft, hnot]
  · rw [hxor, hleft]
    obtain hlow | hright := hright
    · simp [hlow]
    · simp [hright]

/-- Exclusive or does not leave the bit numbers. -/
theorem val_xor (i w : Fin 64) : (i ^^^ w).val = i.val ^^^ w.val :=
  Fin.xor_val_of_two_pow (w := 6) i w

theorem xor_involutive (w : Fin 64) : Function.Involutive (· ^^^ w) := fun i => by
  apply Fin.ext
  rw [val_xor, val_xor, Nat.xor_assoc, Nat.xor_self, Nat.xor_zero]

theorem popcount_swapStage {st : SwapStage} (hst : st ∈ swapStages) (x : Word) :
    popcount (swapBlocks st.width st.rightMask st.leftMask x) = popcount x :=
  popcount_of_perm (xor_involutive st.width).toPerm fun i => by
    rw [getLsbD_swapStage hst]
    exact congrArg _ (val_xor i st.width).symm

/-- The butterfly does nothing but run stages, so it keeps the count (R73). -/
theorem popcount_butterfly (x : Word) : popcount (butterfly x) = popcount x := by
  rw [butterfly]
  refine List.foldlRecOn (motive := fun y => popcount y = popcount x) swapStages _ rfl fun y hy st hst => ?_
  exact (popcount_swapStage hst y).trans hy

/-- A shift left that loses no bit is a rotation (R73). -/
theorem popcount_shiftLeft {x : Word} {k : Nat} (hk : k < 64) (hx : x.toNat < 2 ^ (64 - k)) :
    popcount (x <<< k) = popcount x := by
  by_cases hk0 : k = 0
  · rw [hk0, BitVec.shiftLeft_zero]
  · have hrot : x <<< k = rotateRight x ⟨64 - k, by omega⟩ := by
      have hnone : x >>> (64 - k) = 0#64 := by
        apply BitVec.eq_of_toNat_eq
        rw [BitVec.toNat_ushiftRight, Nat.shiftRight_eq_div_pow, Nat.div_eq_of_lt hx, BitVec.toNat_ofNat, Nat.zero_mod]
      rw [rotateRight_shifts x (Nat.sub_ne_zero_of_lt hk), hnone, BitVec.zero_or, Nat.sub_sub_self (Nat.le_of_lt hk)]
    rw [hrot, popcount_rotateRight]

theorem yOf_mirror (x : Word) : yOf (.mirror x) = some (butterfly x) := rfl

theorem yOf_ror (x k : Word) : yOf (.ror x k) = some (rotateRight x (amount k)) := yOf_of_exec (exec_ror ..)

theorem yOf_rol (x k : Word) : yOf (.rol x k) = some (rotateLeft x (amount k)) := yOf_of_exec (exec_rol ..)

/-- CNTON sees the count alone. -/
theorem yOf_cnton_congr {x y : Word} (h : popcount x = popcount y) : yOf (.cnton x) = yOf (.cnton y) := by
  rw [yOf_cnton_popcount, yOf_cnton_popcount, h]

/-- Comparing counts in `y` compares the numbers: 64 bits hold them (R50). -/
theorem ofNat_popcount_eq_iff (x : Word) {n : Nat} (hn : n ≤ 64) :
    BitVec.ofNat 64 (popcount x) = BitVec.ofNat 64 n ↔ popcount x = n := by
  rw [← BitVec.toNat_inj, toNat_ofNat_popcount, BitVec.toNat_ofNat, Nat.mod_eq_of_lt (by omega)]

/-- Settles O40: no 1 bits and 64 of them are one word each, and a mirror, a rotation and a shift that loses no bit move
the bits only (`popcount_of_perm`). -/
theorem populationCountLaws : Obligations.PopulationCountLaws := by
  refine ⟨fun x => ⟨_, _, yOf_cnton_popcount x, yOf_cntoff x, ?_, ?_, ?_⟩,
    fun x k => ⟨⟨_, yOf_mirror x, yOf_cnton_congr (popcount_butterfly x)⟩,
      ⟨_, yOf_ror x k, yOf_cnton_congr (popcount_rotateRight x _)⟩,
      _, yOf_rol x k, yOf_cnton_congr (popcount_rotateLeft x _)⟩, fun v k hv hk => ?_⟩
  · have hle := popcount_le x
    rw [toNat_ofNat_popcount, zext64_toNat (by decide), cntoff_toNat]
    omega
  · exact (ofNat_popcount_eq_iff x (Nat.zero_le _)).trans (popcount_eq_zero_iff x)
  · exact (ofNat_popcount_eq_iff x le_rfl).trans (popcount_eq_sixtyFour_iff x)
  · have hroom : 2 ^ 8 ≤ 2 ^ (64 - k) := Nat.pow_le_pow_right Nat.two_pos (by omega)
    have hfits : (BitVec.ofNat 64 v).toNat < 2 ^ (64 - k) := by
      rw [BitVec.toNat_ofNat]
      omega
    rw [yOf_cnton_popcount, popcount_shiftLeft (by omega) hfits]

end Sys2Proof.Machine

/-! PROOFS. The family 43_mirror.md: the stages of the butterfly (R76), the mirror they make in any order (R77), MIRROR
(R75) and its laws (R78). -/

namespace Sys2Proof.Machine

/-! ### Any run of stages moves bits -/

/-- The index whose bit a run of stages brings to index `i`: each stage, the last one first, complements its digit (R77). -/
def sourceIndex (stages : List SwapStage) (i : Fin 64) : Fin 64 := stages.foldr (fun st j => j ^^^ st.width) i

theorem sourceIndex_cons (st : SwapStage) (stages : List SwapStage) (i : Fin 64) :
    sourceIndex (st :: stages) i = sourceIndex stages i ^^^ st.width := rfl

/-- Digits can be complemented in any order. -/
theorem sourceIndex_of_perm {order stages : List SwapStage} (h : order.Perm stages) (i : Fin 64) :
    sourceIndex order i = sourceIndex stages i := by
  refine h.foldr_eq' (fun st _ st' _ j => Fin.ext ?_) i
  rw [val_xor, val_xor, val_xor, val_xor, Nat.xor_right_comm]

/-- The six stages complement all six digits: `i` xor 63 is `63 - i` (R77). -/
theorem sourceIndex_swapStages : ∀ i : Fin 64, (sourceIndex swapStages i).val = 63 - i := by decide

theorem getLsbD_foldl_swapBlocks {order : List SwapStage} (h : ∀ st ∈ order, st ∈ swapStages) (x : Word) (i : Fin 64) :
    (order.foldl (fun y st => swapBlocks st.width st.rightMask st.leftMask y) x).getLsbD i
      = x.getLsbD (sourceIndex order i) := by
  induction order generalizing x with
  | nil => rfl
  | cons st rest ih =>
    rw [List.foldl_cons, ih fun st' hst' => h st' (List.mem_cons_of_mem _ hst'), getLsbD_swapStage (h st List.mem_cons_self),
      sourceIndex_cons, val_xor]

/-- The six stages in any order bring to index `i` the bit at `63 - i` (R77). -/
theorem getLsbD_foldl_of_perm {order : List SwapStage} (h : order.Perm swapStages) (x : Word) {i : Nat} (hi : i < 64) :
    (order.foldl (fun y st => swapBlocks st.width st.rightMask st.leftMask y) x).getLsbD i = x.getLsbD (63 - i) := by
  rw [getLsbD_foldl_swapBlocks (fun _ => h.mem_iff.mp) x ⟨i, hi⟩, sourceIndex_of_perm h, sourceIndex_swapStages]

/-- A word is the mirror once its bits are (R9). -/
theorem eq_rev64_of_getLsbD {x y : Word} (h : ∀ i, i < 64 → y.getLsbD i = x.getLsbD (63 - i)) : y = rev64 x := by
  refine BitVec.eq_of_getLsbD_eq fun i hi => ?_
  rw [h i hi, rev64, getLsbD_ofBits, decide_eq_true hi, Bool.true_and]

/-- Settles O25: a stage complements one digit (`getLsbD_swapStage`), and the order of six complements does not matter
(`sourceIndex_of_perm`). -/
theorem butterflyIsTheExactMirrorInAnyOrder : Obligations.ButterflyIsTheExactMirrorInAnyOrder := by
  refine ⟨fun st hst x i hi => ?_, fun order h x => eq_rev64_of_getLsbD fun i hi => getLsbD_foldl_of_perm h x hi⟩
  have hmove := getLsbD_swapStage hst x (⟨i, hi⟩ ^^^ st.width)
  rwa [val_xor, Nat.xor_assoc, Nat.xor_self, Nat.xor_zero] at hmove

/-! ### The masks of a stage -/

/-- The two masks of a stage are each other's complement and each other's shift, and the right one has the lower half of
each block pair (R76). -/
theorem swapStages_mask_pairs : ∀ st ∈ swapStages,
    st.leftMask = ~~~st.rightMask ∧ st.leftMask = st.rightMask <<< st.width.val
      ∧ MasksLowHalves st.width st.rightMask := by
  unfold MasksLowHalves
  decide

/-- The two halves of a stage have no bit in common (R76). -/
theorem swapStage_halves_disjoint {st : SwapStage} (hst : st ∈ swapStages) (x : Word) :
    (x &&& st.rightMask) <<< st.width.val &&& (x &&& st.leftMask) >>> st.width.val = 0#64 := by
  refine BitVec.eq_of_getLsbD_eq fun i hi => ?_
  rw [BitVec.getLsbD_and, BitVec.getLsbD_shiftLeft, BitVec.getLsbD_ushiftRight, BitVec.getLsbD_and, BitVec.getLsbD_and]
  obtain ⟨-, -, -, hleft⟩ | ⟨hlow | hright, -, -⟩ := swapStages_masks st hst ⟨i, hi⟩
  · simp [hleft]
  · simp [hlow]
  · simp [hright]

/-- Without a common bit, exclusive or joins as or does. -/
theorem xor_eq_or_of_and_eq_zero {x y : Word} (h : x &&& y = 0#64) : x ^^^ y = x ||| y := by
  have hjoin : ∀ p q : Bool, (p && q) = false → (p ^^ q) = (p || q) := by decide
  refine BitVec.eq_of_getLsbD_eq fun i _ => ?_
  rw [BitVec.getLsbD_xor, BitVec.getLsbD_or]
  apply hjoin
  rw [← BitVec.getLsbD_and, h, BitVec.getLsbD_zero]

/-- Settles O24: the table's masks by evaluation, the three ways to join by `swapStage_halves_disjoint`. -/
theorem butterflyStagesHaveTheirMasks : Obligations.ButterflyStagesHaveTheirMasks := by
  refine ⟨fun _ => rfl, rfl, fun st hst => ?_⟩
  obtain ⟨hnot, hshift, hlow⟩ := swapStages_mask_pairs st hst
  refine ⟨hnot, hshift, hlow, fun x => ⟨rfl, ?_, ?_⟩⟩
  · exact (BitVec.add_eq_or_of_and_eq_zero _ _ (swapStage_halves_disjoint hst x)).symm
  · exact (xor_eq_or_of_and_eq_zero (swapStage_halves_disjoint hst x)).symm

/-! ### MIRROR -/

theorem exec_mirror (a : Word) (s : State) : exec (.mirror a) s = .next (s.drive (.ok (butterfly a) 0)) := rfl

/-- The bit of the mirror (R75). -/
theorem getLsbD_butterfly (x : Word) {i : Nat} (hi : i < 64) : (butterfly x).getLsbD i = x.getLsbD (63 - i) :=
  getLsbD_foldl_of_perm (List.Perm.refl _) x hi

/-- Settles O23: the butterfly is the mirror bit by bit (`getLsbD_butterfly`). -/
theorem mirrorReversesTheBits : Obligations.MirrorReversesTheBits :=
  ⟨fun a s => ⟨exec_mirror a s, eq_rev64_of_getLsbD fun _ => getLsbD_butterfly a, fun _ => getLsbD_butterfly a⟩,
    fun _ => rfl, fun _ s hop => blockStep_of_opcode (m := .mirror) hop s⟩

/-! ### Its laws -/

theorem butterfly_butterfly (x : Word) : butterfly (butterfly x) = x := by
  refine BitVec.eq_of_getLsbD_eq fun i hi => ?_
  rw [getLsbD_butterfly _ hi, getLsbD_butterfly _ (by omega), Nat.sub_sub_self (Nat.le_of_lt_succ hi)]

theorem butterfly_and (x z : Word) : butterfly (x &&& z) = butterfly x &&& butterfly z :=
  BitVec.eq_of_getLsbD_eq fun i hi => by simp only [BitVec.getLsbD_and, getLsbD_butterfly _ hi]

theorem butterfly_or (x z : Word) : butterfly (x ||| z) = butterfly x ||| butterfly z :=
  BitVec.eq_of_getLsbD_eq fun i hi => by simp only [BitVec.getLsbD_or, getLsbD_butterfly _ hi]

theorem butterfly_xor (x z : Word) : butterfly (x ^^^ z) = butterfly x ^^^ butterfly z :=
  BitVec.eq_of_getLsbD_eq fun i hi => by simp only [BitVec.getLsbD_xor, getLsbD_butterfly _ hi]

theorem butterfly_not (x : Word) : butterfly (~~~x) = ~~~butterfly x := by
  refine BitVec.eq_of_getLsbD_eq fun i hi => ?_
  have hrev : 63 - i < 64 := by omega
  simp only [BitVec.getLsbD_not, getLsbD_butterfly _ hi, hi, hrev]

theorem getLsbD_rotateLeft (x : Word) (s i : Fin 64) :
    (rotateLeft x s).getLsbD i = x.getLsbD ((i + (64 - s) % 64) % 64) := getLsbD_rotateRight x _ i

/-- The mirror of a right rotation is the left rotation of the mirror (R78). -/
theorem butterfly_rotateRight (x : Word) (s : Fin 64) : butterfly (rotateRight x s) = rotateLeft (butterfly x) s := by
  refine BitVec.eq_of_getLsbD_eq fun i hi => ?_
  have hindex : (63 - i + s.val) % 64 = 63 - (i + (64 - s.val) % 64) % 64 := by omega
  rw [getLsbD_butterfly _ hi, getLsbD_rotateRight x s ⟨63 - i, by omega⟩, getLsbD_rotateLeft _ s ⟨i, hi⟩,
    getLsbD_butterfly _ (Nat.mod_lt _ (by decide)), hindex]

theorem yOf_get_butterfly (x : Word) (i : Fin 64) :
    yOf (.get (butterfly x) (idx i)) = yOf (.get x (idx ⟨63 - i.val, by omega⟩)) := by
  rw [yOf_get_bit, yOf_get_bit, getLsbD_butterfly x i.isLt]

theorem txtOf_render (x : Word) : txtOf (.render x) = some (render x) := rfl

theorem bitChar_eq_ch1_iff (bit : Bool) : bitChar bit = Config.ch1 ↔ bit = true := by
  cases bit <;> decide

/-- Settles O41: the laws of `butterfly`, each by the bits it moves (`getLsbD_butterfly`), and the characters of the
rendering by `txtChar_render`. -/
theorem mirrorLaws : Obligations.MirrorLaws := by
  refine ⟨fun x => ?_, fun x i => ⟨_, yOf_mirror x, yOf_get_butterfly x i, yOf_cnton_congr (popcount_butterfly x)⟩,
    fun x z => ⟨_, _, yOf_mirror x, yOf_mirror z, ?_, ?_, ?_, ?_⟩,
    fun x k => ⟨_, _, _, yOf_ror x k, yOf_mirror x, yOf_mirror _, ?_⟩,
    fun x j hj => ⟨_, _, yOf_mirror x, txtOf_render x, ?_⟩⟩
  · rw [yOf_mirror, Option.bind_some, yOf_mirror, butterfly_butterfly]
  · rw [yOf_mirror, butterfly_and]
  · rw [yOf_mirror, butterfly_or]
  · rw [yOf_mirror, butterfly_xor]
  · rw [yOf_mirror, butterfly_not]
  · rw [yOf_rol, butterfly_rotateRight]
  · rw [txtChar_render x hj, getLsbD_butterfly x hj]
    exact bitChar_eq_ch1_iff _

end Sys2Proof.Machine

/-! PROOFS. The family 44_rotate.md: ROR (R80), the barrel rotator (R82), ROL (R83, R84) and the laws of the rotations
(R85). Each rotator is `rotr64` (R9) by some number of places, and that number counts modulo 64. -/

namespace Sys2Proof.Machine

/-! ### The mathematical rotation -/

theorem getLsbD_rotr64 (x : Word) (n : Nat) {i : Nat} (hi : i < 64) :
    (rotr64 x n).getLsbD i = x.getLsbD ((i + n) % 64) := by
  rw [rotr64, getLsbD_ofBits, decide_eq_true hi, Bool.true_and]

theorem rotr64_congr (x : Word) {m n : Nat} (h : m % 64 = n % 64) : rotr64 x m = rotr64 x n :=
  BitVec.eq_of_getLsbD_eq fun i hi => by rw [getLsbD_rotr64 x m hi, getLsbD_rotr64 x n hi, Nat.add_mod, h, ← Nat.add_mod]

theorem rotr64_of_mod_eq_zero (x : Word) {n : Nat} (h : n % 64 = 0) : rotr64 x n = x := by
  refine BitVec.eq_of_getLsbD_eq fun i hi => ?_
  have hsame : (i + n) % 64 = i := by omega
  rw [getLsbD_rotr64 x n hi, hsame]

/-- Rotations compose by adding their amounts (R82, R85). -/
theorem rotr64_rotr64 (x : Word) (m n : Nat) : rotr64 (rotr64 x m) n = rotr64 x (m + n) := by
  refine BitVec.eq_of_getLsbD_eq fun i hi => ?_
  have hindex : ((i + n) % 64 + m) % 64 = (i + (m + n)) % 64 := by omega
  rw [getLsbD_rotr64 _ n hi, getLsbD_rotr64 x m (Nat.mod_lt _ (by decide)), getLsbD_rotr64 x (m + n) hi, hindex]

/-! ### ROR and ROL -/

/-- The guarded two-shift rotator is the mathematical one (R80). -/
theorem rotateRight_eq_rotr64 (x : Word) (s : Fin 64) : rotateRight x s = rotr64 x s.val :=
  BitVec.eq_of_getLsbD_eq fun i hi => by rw [getLsbD_rotateRight x s ⟨i, hi⟩, getLsbD_rotr64 x s hi]

theorem rotateRight_eq_ite (x : Word) (s : Fin 64) :
    rotateRight x s = if s.val = 0 then x else x >>> s.val ||| x <<< (64 - s.val) := by
  split
  case isTrue h => exact rotateRight_zero x h
  case isFalse h => exact rotateRight_shifts x h

/-- Settles O26: the rotator is the two guarded shifts (`rotateRight_eq_ite`) and `rotr64` (`rotateRight_eq_rotr64`). -/
theorem rorRotatesRight : Obligations.RorRotatesRight :=
  ⟨fun a b s => ⟨_, exec_ror a b s, rotateRight_eq_ite a _, rotateRight_eq_rotr64 a _,
      fun i hi => getLsbD_rotateRight a (amount b) ⟨i, hi⟩⟩,
    fun _ _ => rfl, fun _ s hop => blockStep_of_opcode (m := .ror) hop s⟩

theorem rotateLeft_eq_rotr64 (x : Word) (s : Fin 64) : rotateLeft x s = rotr64 x ((64 - s.val) % 64) :=
  rotateRight_eq_rotr64 x _

/-- The two shifts of a left rotation (R83): those of the right rotation by `64 - s`, the other way round. -/
theorem rotateLeft_eq_ite (x : Word) (s : Fin 64) :
    rotateLeft x s = if s.val = 0 then x else x <<< s.val ||| x >>> (64 - s.val) := by
  rw [rotateLeft, rotateRight_eq_ite]
  by_cases hs : s.val = 0
  · simp [hs]
  · have hmod : (64 - s.val) % 64 = 64 - s.val := by omega
    have hback : 64 - (64 - s.val) = s.val := by omega
    have hne : 64 - s.val ≠ 0 := by omega
    simp only [hmod, hback, if_neg hne, if_neg hs, BitVec.or_comm]

/-- 64 divides 2^64, so a difference that wraps is the same amount (R84). -/
theorem wrapping_sub_mod (b : Word) : (64#64 - b).toNat % 64 = (64 - b.toNat % 64) % 64 := by
  rw [BitVec.toNat_sub, BitVec.toNat_ofNat]
  omega

/-- Settles O27: a left rotation is `rotr64` by what is missing to 64 (`rotateLeft_eq_rotr64`), an amount both readings
give (`wrapping_sub_mod`). -/
theorem rolRotatesLeft : Obligations.RolRotatesLeft := by
  refine ⟨fun a b s => ⟨_, exec_rol a b s, rotateLeft_eq_rotr64 a _, ?_, fun i hi => ?_, rotateLeft_eq_ite a _⟩,
    fun _ _ => rfl, fun _ s hop => blockStep_of_opcode (m := .rol) hop s⟩
  · rw [wrapping_sub_mod]
    exact rotateLeft_eq_rotr64 a _
  · have hindex : (i + (64 - b.toNat % 64) % 64) % 64 = (i + 64 - b.toNat % 64) % 64 := by omega
    rw [getLsbD_rotateLeft a (amount b) ⟨i, hi⟩, amount_val, hindex]

/-! ### The barrel rotator -/

/-- A stage rotates by the place value of its bit of the amount, by nothing when the bit is 0 (R82). -/
theorem barrelStage_eq_rotr64 (s : Fin 64) (x : Word) (k : Nat) :
    barrelStage s x k = rotr64 x (2 ^ k * (s.val.testBit k).toNat) := by
  rw [barrelStage]
  cases s.val.testBit k
  case false => exact (rotr64_of_mod_eq_zero x rfl).symm
  case true => rw [if_pos rfl, Bool.toNat_true, Nat.mul_one]

/-- The first `n` stages rotate by the number the lowest `n` bits of the amount make (R82). -/
theorem foldl_barrelStage (x : Word) (s : Fin 64) (n : Nat) :
    (List.range n).foldl (barrelStage s) x = rotr64 x (s.val % 2 ^ n) := by
  induction n with
  | zero => exact (rotr64_of_mod_eq_zero x (by rw [Nat.pow_zero, Nat.mod_one])).symm
  | succ n ih =>
    rw [List.range_succ, List.foldl_append, ih, List.foldl_cons, List.foldl_nil, barrelStage_eq_rotr64, rotr64_rotr64,
      Nat.toNat_testBit, ← Nat.mod_pow_succ]

/-- Settles O28: six bits are the whole amount (`foldl_barrelStage`). -/
theorem barrelRotatorGivesTheSameWord : Obligations.BarrelRotatorGivesTheSameWord := fun x s => by
  rw [barrel, foldl_barrelStage, rotateRight_eq_rotr64]
  exact rotr64_congr x (Nat.mod_mod _ _)

/-! ### The laws of the rotations -/

/-- Reducing a `b` leaves its amount (R48). -/
theorem toNat_umod_mod (k : Word) : (k % 64#64).toNat % 64 = k.toNat % 64 := Nat.mod_mod _ _

/-- 64 divides 2^64, so a sum that wraps is the same amount (R85). -/
theorem toNat_add_mod (k m : Word) : (k + m).toNat % 64 = (k.toNat + m.toNat) % 64 := by
  rw [BitVec.toNat_add]
  omega

theorem toNat_reduced_add_mod (k m : Word) : (k % 64#64 + m % 64#64).toNat % 64 = (k.toNat + m.toNat) % 64 := by
  rw [toNat_add_mod, Nat.add_mod, toNat_umod_mod, toNat_umod_mod, ← Nat.add_mod]

theorem yOf_ror_rotr64 (x k : Word) : yOf (.ror x k) = some (rotr64 x k.toNat) := by
  rw [yOf_ror, rotateRight_eq_rotr64, amount_val, rotr64_congr x (Nat.mod_mod _ _)]

theorem yOf_rol_rotr64 (x k : Word) : yOf (.rol x k) = some (rotr64 x (64 - k.toNat % 64)) := by
  rw [yOf_rol, rotateLeft_eq_rotr64, amount_val, rotr64_congr x (Nat.mod_mod _ _)]

/-- ROL's amount, as ROR by `64 - (k mod 64)` takes it from a 64-bit `b` (R83). -/
theorem wrapping_sub_umod_mod (k : Word) : (64#64 - k % 64#64).toNat % 64 = (64 - k.toNat % 64) % 64 := by
  rw [wrapping_sub_mod, toNat_umod_mod]

/-- Settles O42: every law is a sum of amounts in one `rotr64` (`rotr64_rotr64`), compared modulo 64
(`rotr64_congr`). -/
theorem rotationLaws : Obligations.RotationLaws := by
  refine ⟨fun x k => ⟨?rorAfterRol, ?rolAfterRor, ?rorPeriod, ?rolPeriod, fun hk => ⟨?rorIdentity, ?rolIdentity⟩,
      ?rolIsRor, ?half⟩,
    fun x k m => ⟨_, _, yOf_ror_rotr64 x k, yOf_ror_rotr64 _ m, ?reducedSum, ?wrappingSum⟩,
    fun x k i => ⟨_, yOf_ror x k, yOf_cnton_congr (popcount_rotateRight x _), ?get⟩⟩
  case rorAfterRol =>
    rw [yOf_rol_rotr64, Option.bind_some, yOf_ror_rotr64, rotr64_rotr64, rotr64_of_mod_eq_zero x (by omega)]
  case rolAfterRor =>
    rw [yOf_ror_rotr64, Option.bind_some, yOf_rol_rotr64, rotr64_rotr64, rotr64_of_mod_eq_zero x (by omega)]
  case rorPeriod => rw [yOf_ror_rotr64, yOf_ror_rotr64, rotr64_congr x (toNat_umod_mod k)]
  case rolPeriod => rw [yOf_rol_rotr64, yOf_rol_rotr64, toNat_umod_mod]
  case rorIdentity => rw [yOf_ror_rotr64, rotr64_of_mod_eq_zero x hk]
  case rolIdentity => rw [yOf_rol_rotr64, hk, rotr64_of_mod_eq_zero x (by decide)]
  case rolIsRor => rw [yOf_rol_rotr64, yOf_ror_rotr64, rotr64_congr x (wrapping_sub_umod_mod k)]
  case half =>
    rw [yOf_ror_rotr64, yOf_rol_rotr64]
    rfl
  case reducedSum => rw [yOf_ror_rotr64, rotr64_rotr64, rotr64_congr x (toNat_reduced_add_mod k m)]
  case wrappingSum => rw [yOf_ror_rotr64, rotr64_rotr64, rotr64_congr x (toNat_add_mod k m)]
  case get => rw [yOf_get_bit, yOf_get_bit, getLsbD_rotateRight, amount_val, Nat.add_mod_mod]

end Sys2Proof.Machine

/-! PROOFS. The family 45_render.md: RENDER (R87, R89), its reading as the mirror (R88), and Parse (R90). Character `j`
of the rendering shows bit `63-j` (`txtChar_render`), and bit 0 of the character is that bit. -/

namespace Sys2Proof.Machine

/-! ### The characters -/

/-- A bit's character is CH0 with the bit in bit 0 (R89). -/
theorem bitChar_eq_or (bit : Bool) : bitChar bit = 0x30#8 ||| (BitVec.ofBool bit).setWidth 8 := by
  cases bit <;> decide

theorem extractLsb'_one_eq_ofBool (x : Word) (i : Nat) : x.extractLsb' i 1 = BitVec.ofBool (x.getLsbD i) := by
  refine BitVec.eq_of_getLsbD_eq fun k hk => ?_
  obtain rfl : k = 0 := by omega
  rw [BitVec.getLsbD_extractLsb', BitVec.getLsbD_ofBool, decide_eq_true hk, decide_eq_true rfl, Bool.true_and,
    Bool.true_and, Nat.add_zero]

theorem getLsbD_zero_bitChar (bit : Bool) : (bitChar bit).getLsbD 0 = bit := by
  cases bit <;> decide

/-- Bit 0 of character `j` stands at bit `8j` of the string (R41). -/
theorem getLsbD_zero_txtChar (t : Txt) (j : Nat) : (txtChar t j).getLsbD 0 = t.getLsbD (8 * j) := by
  rw [txtChar, BitVec.getLsbD_extractLsb', decide_eq_true (by decide), Bool.true_and, Nat.add_zero]

/-! ### RENDER -/

theorem exec_render (a : Word) (s : State) : exec (.render a) s = .next (s.drive (.ok 0 (render a))) := rfl

/-- Settles O29: each character by `txtChar_render`, its second form by `bitChar_eq_or`. -/
theorem renderWritesSixtyFourCharacters : Obligations.RenderWritesSixtyFourCharacters := by
  refine ⟨fun a s => ⟨_, exec_render a s, fun j hj => ⟨txtChar_render a hj, ?_⟩⟩,
    fun _ => rfl, fun _ s hop => blockStep_of_opcode (m := .render) hop s⟩
  rw [extractLsb'_one_eq_ofBool, ← bitChar_eq_or]
  exact txtChar_render a hj

/-! ### The mirror in characters -/

theorem getLsbD_rev64 (x : Word) {i : Nat} (hi : i < 64) : (rev64 x).getLsbD i = x.getLsbD (63 - i) := by
  rw [rev64, getLsbD_ofBits, decide_eq_true hi, Bool.true_and]

/-- Settles O30: bit `j` of either mirror is the bit that character `j` shows. -/
theorem renderingIsTheMirrorInCharacters : Obligations.RenderingIsTheMirrorInCharacters := by
  intro a j hj
  rw [getLsbD_butterfly a hj, getLsbD_rev64 a hj]
  exact ⟨txtChar_render a hj, txtChar_render a hj⟩

/-! ### Parse -/

/-- On a string of the two characters, Parse puts bit 0 of character `j` in bit `63-j` (R90). -/
theorem parse_of_chars {t : Txt} (h : ∀ j, j < 64 → txtChar t j = Config.ch0 ∨ txtChar t j = Config.ch1) :
    ∃ x, parse t = some x ∧ ∀ j, j < 64 → x.getLsbD (63 - j) = t.getLsbD (8 * j) := by
  refine ⟨_, if_pos ?_, fun j hj => ?_⟩
  · simpa using h
  · rw [getLsbD_ofBits, decide_eq_true (by omega), Bool.true_and, Nat.sub_sub_self (Nat.le_of_lt_succ hj)]

/-- Parse is not defined on a string with another character (R90). -/
theorem parse_eq_none {t : Txt} {j : Nat} (hj : j < 64) (h0 : txtChar t j ≠ Config.ch0) (h1 : txtChar t j ≠ Config.ch1) :
    parse t = none := by
  refine if_neg fun hall => ?_
  have hchar := List.all_eq_true.mp hall j (List.mem_range.mpr hj)
  simp [h0, h1] at hchar

/-- Parse turns the rendering back into the word: bit 0 of character `j` is the bit that Parse puts in bit `63-j` (R90). -/
theorem parse_render (x : Word) : parse (render x) = some x := by
  obtain ⟨y, hy, hbits⟩ := parse_of_chars fun j hj => txtChar_render x hj ▸ bitChar_eq _
  rw [hy, Option.some.injEq]
  refine BitVec.eq_of_getLsbD_eq fun i hi => ?_
  have hchar : 63 - i < 64 := by omega
  have hindex : 63 - (63 - i) = i := by omega
  calc
    y.getLsbD i = (render x).getLsbD (8 * (63 - i)) := by rw [← hbits _ hchar, hindex]
    _ = x.getLsbD i := by
      rw [← getLsbD_zero_txtChar, txtChar_render x hchar, getLsbD_zero_bitChar, hindex]

theorem render_injective : Function.Injective render := fun x z h => by
  rw [← Option.some.injEq, ← parse_render x, h, parse_render z]

/-- Settles O31: the round trip is `parse_render`; Parse itself by `parse_of_chars` and `parse_eq_none`. -/
theorem parseOfTheRenderingGivesTheWordBack : Obligations.ParseOfTheRenderingGivesTheWordBack :=
  ⟨parse_render, fun _ _ h => render_injective (Option.some.inj h), fun _ => parse_of_chars,
    fun _ _ => parse_eq_none⟩

end Sys2Proof.Machine

/-! PROOFS. The family 60_exceptions.md: a reserved opcode (R93), errors are not sticky and a script keeps its own (R98),
and what the host's duties give (R104). -/

namespace Sys2Proof.Machine

/-! ### A reserved opcode -/

/-- The answer to a reserved opcode is IllegalOp (R93). -/
theorem answer_of_reserved {w : CommandWord} (h : 0x0E ≤ (opField w).toNat) : answer w = some (.error .illegalOp) := by
  rw [answer, blockStep_of_reserved h]
  rfl

/-- Settles O46: `step_of_fetch` records the block's answer, `answer_of_reserved` says which it is. -/
theorem stepOnAReservedWordGoesOn : Obligations.StepOnAReservedWordGoesOn := by
  intro s f hf hreserved
  obtain ⟨r, ha, hs⟩ := step_of_fetch hf
  obtain rfl : r = .error .illegalOp := Option.some.inj (ha.symm.trans (answer_of_reserved hreserved))
  exact hs

/-! ### A script with an error in its record -/

theorem isOk_iff (r : Response) : r.isOk = true ↔ ∃ y t, r = .ok y t :=
  beq_iff_eq.trans (err_eq_zero_iff r)

/-- The first error of a record has the number of its line: one more than the results before it (R55). -/
theorem firstError_of_first {before after : List Exchange} {x : Exchange} {e : Err}
    (hbefore : ∀ z ∈ before, z.rsp.isOk = true) (hx : x.rsp = .error e) (n : Nat) :
    firstError n (before ++ x :: after) = some (before.length + n, e) := by
  induction before generalizing n with
  | nil => simp [firstError, hx]
  | cons z zs ih =>
    obtain ⟨hz, hzs⟩ := List.forall_mem_cons.mp hbefore
    obtain ⟨y, t, hr⟩ := (isOk_iff z.rsp).mp hz
    simp only [List.cons_append, firstError, hr, ih hzs, List.length_cons]
    congr 2
    omega

/-- A line of script `k` is a script line with that number. -/
theorem exists_eq_script {l : Line} {k : Nat} (h : l.script? = some k) : ∃ c, l = .script k c := by
  cases l with
  | word w => cases h
  | script j c => cases h; exact ⟨c, rfl⟩

/-- Once a script has met an error no line of it is sent (R55, R98). -/
theorem fetch_script_ne_of_recordedError {s : State} {k : Nat} {p : Nat × Err} {f : Sent}
    (h : s.recordedError k = some p) (hf : fetch s = .next f) : f.script ≠ some k := by
  obtain ⟨before, l, after, -, -, hscript, hc, -⟩ := fetch_next hf
  intro hk
  obtain ⟨c, rfl⟩ := exists_eq_script (hscript.symm.trans hk)
  rw [lineCommand_stopped h] at hc
  cases hc

theorem scriptLines_filter (k : Nat) (ls : List Line) :
    scriptLines k (ls.filter (fun l => l.script? == some k)) = scriptLines k ls := by
  induction ls with
  | nil => rfl
  | cons l ls ih =>
    by_cases h : l.script? = some k
    · rw [List.filter_cons_of_pos (by simpa using h)]
      obtain ⟨c, rfl⟩ := exists_eq_script h
      simp only [scriptLines, if_true, ih]
    · rw [scriptLines_cons_of_ne h, List.filter_cons_of_neg (by simpa using h), ih]

/-- A step that sends a line of another part leaves script `k`'s record and lines as they were (R24). -/
theorem step_script_unchanged {s t : State} {k : Nat} {f : Sent} (hf : fetch s = .next f) (hs : step s = .next t)
    (hk : f.script ≠ some k) :
    scriptLog k t.log = scriptLog k s.log ∧ scriptLines k t.pending = scriptLines k s.pending := by
  obtain ⟨hpending, hlog⟩ := step_only_of_ne hf hs hk
  exact ⟨hlog, by rw [← scriptLines_filter, ← scriptLines_filter k s.pending]; exact congrArg _ hpending⟩

/-- Where only lines of a script that has met an error are left, the step stops with that error and its line (R55). -/
theorem step_of_only_stopped {s : State} {k n : Nat} {e : Err} (h : s.recordedError k = some (n, e))
    (hne : s.pending ≠ []) (hall : ∀ l ∈ s.pending, l.script? = some k) :
    step s = .fault (.scriptStopped k n e) := by
  obtain ⟨l, ls, hp⟩ := List.exists_cons_of_ne_nil hne
  obtain ⟨c, rfl⟩ := exists_eq_script (hall l (by simp [hp]))
  have hstop := lineCommand_stopped h c
  rcases fetch_of_cons hp with ⟨f, hf⟩ | ⟨e', hc, hf⟩ | ⟨r, hc, -⟩
  · obtain ⟨before, z, after, hz, -, hscript, -, -⟩ := fetch_next hf
    have hk : f.script = some k := hscript.trans (hall z (by simp [hz]))
    exact absurd hk (fetch_script_ne_of_recordedError h hf)
  · cases hc.symm.trans hstop
    exact step_of_fetch_fault hf
  · cases hc.symm.trans hstop

/-- Settles O48: a literal word that comes first is fetched whatever stands in the state (`fetch_word`); a script with an
error in its record, which `firstError_of_first` finds, sends nothing. -/
theorem errorsAreNotSticky : Obligations.ErrorsAreNotSticky := by
  refine ⟨fun s w ls hp => ?_, fun s k before after x e hlog hbefore hx => ?_⟩
  · obtain ⟨r, ha, hs⟩ := step_of_fetch (fetch_word hp)
    exact ⟨_, r, hs, ha, rfl, rfl, rfl⟩
  · have herror : s.recordedError k = some (before.length + 1, e) := by
      rw [State.recordedError, hlog, firstError_of_first hbefore hx]
    refine ⟨fun t hs => ?_, step_of_only_stopped herror⟩
    obtain ⟨f, -, hf, -, -⟩ := step_next hs
    exact step_script_unchanged hf hs (fetch_script_ne_of_recordedError herror hf)

/-! ### A well-formed script line -/

/-- What the well-formedness of line `n` says (R53, R55). -/
theorem wellFormed_iff {n : Nat} {l : ScriptLine} :
    l.wellFormed n = true ↔ l.operands.length = l.mnemonic.operands.length
      ∧ (∀ p ∈ l.mnemonic.operands.zip l.operands, p.2.fits p.1 = true) ∧ ∀ o ∈ l.operands, o.earlier n = true := by
  simp only [ScriptLine.wellFormed, Bool.and_eq_true, beq_iff_eq, List.all_eq_true, and_assoc]

/-- The next line of a script is well formed under the number behind its record (R55). -/
theorem State.ScriptSound.wellFormed_next {s : State} {k : Nat} {l : ScriptLine} {before after : List Line}
    (h : s.ScriptSound) (hp : s.pending = before ++ .script k l :: after) (hbefore : ∀ z ∈ before, z.script? ≠ some k) :
    l.wellFormed ((scriptLog k s.log).length + 1) = true := by
  have hlines : scriptLines k s.pending = l :: scriptLines k after := by
    rw [hp, scriptLines_append, scriptLines_of_forall_ne hbefore]
    exact if_pos rfl
  have hsound := h k
  rw [hlines, scriptWellFormed, Bool.and_eq_true] at hsound
  exact hsound.1

/-- A reference to an earlier line, in a record without an error, names a result (R104). -/
theorem exists_result_of_earlier {record : List Exchange} {m : Nat} (hn : firstError 1 record = none)
    (hm : (Operand.ref m).earlier (record.length + 1) = true) :
    ∃ j x y t, m = j + 1 ∧ record[j]? = some x ∧ x.rsp = .ok y t := by
  obtain ⟨hpos, hlt⟩ : 1 ≤ m ∧ m < record.length + 1 := of_decide_eq_true hm
  obtain ⟨j, rfl⟩ := Nat.exists_eq_add_of_le' hpos
  have hj : j < record.length := Nat.lt_of_succ_lt_succ hlt
  obtain ⟨y, t, hr⟩ := rsp_ok_of_firstError_none hn _ (List.getElem_mem hj)
  exact ⟨j, _, y, t, rfl, List.getElem?_eq_getElem hj, hr⟩

/-- In a record without an error every operand of a well-formed next line has a value (R55, R104). -/
theorem exists_operandValue {record : List Exchange} {o : Operand} (hn : firstError 1 record = none)
    (ho : o.earlier (record.length + 1) = true) : ∃ n, operandValue record o = some n := by
  cases o with
  | lit n => exact ⟨n, rfl⟩
  | ref m =>
    obtain ⟨j, x, y, t, rfl, hx, hr⟩ := exists_result_of_earlier hn ho
    exact ⟨_, operandValue_ref hx hr⟩

/-- The value of an operand fits the operand's field, unless it is a result in the 8 bits of `v` (R38, R53). -/
theorem lt_of_operandValue {record : List Exchange} {f : Field} {o : Operand} {n : Nat} (hfits : o.fits f = true)
    (hv : ∀ j, (f, o) ≠ (.v, .ref j)) (hn : operandValue record o = some n) : n < 2 ^ f.width := by
  cases o with
  | lit m =>
    cases hn
    exact of_decide_eq_true hfits
  | ref j =>
    obtain ⟨y, -, rfl⟩ := Option.map_eq_some_iff.mp hn
    cases f with
    | a => exact y.isLt
    | b => exact y.isLt
    | v => exact absurd rfl (hv j)

/-- The value of an operand where it has one. -/
def valueOf (record : List Exchange) (o : Operand) : Nat := (operandValue record o).getD 0

theorem operandValue_eq_valueOf {record : List Exchange} {o : Operand} (h : ∃ n, operandValue record o = some n) :
    operandValue record o = some (valueOf record o) := by
  obtain ⟨n, hn⟩ := h
  rw [valueOf, hn, Option.getD_some]

/-- Where every operand has a value the host can replace them all (R55). -/
theorem mapM_operandValue {record : List Exchange} {ops : List Operand}
    (h : ∀ o ∈ ops, ∃ n, operandValue record o = some n) :
    ops.mapM (operandValue record) = some (ops.map (valueOf record)) := by
  induction ops with
  | nil => rfl
  | cons o os ih =>
    obtain ⟨ho, hos⟩ := List.forall_mem_cons.mp h
    rw [List.mapM_cons, operandValue_eq_valueOf ho, ih hos]
    rfl

/-- A well-formed line, where its script's record has no error, is left to the assembler with all its values (R55). -/
theorem buildScript_of_wellFormed {record : List Exchange} {l : ScriptLine} (hn : firstError 1 record = none)
    (hl : l.wellFormed (record.length + 1) = true) :
    buildScript record l = assembleValues l.mnemonic (l.operands.map (valueOf record)) := by
  obtain ⟨-, -, hearlier⟩ := wellFormed_iff.mp hl
  rw [buildScript, mapM_operandValue fun o ho => exists_operandValue hn (hearlier o ho)]

/-- Values of the right count are rejected only for one that does not fit (R53). -/
theorem operandTooLarge_of_assembleValues {m : Mnemonic} {vals : List Nat} {e : AsmError}
    (hlen : vals.length = m.operands.length) (h : assembleValues m vals = .error e) : e = .operandTooLarge := by
  rw [assembleValues, if_neg (not_not.mpr hlen)] at h
  split at h
  · cases h
  · exact (Except.error.inj h).symm

/-- A well-formed line with no `%m` in the `v` place is built, where its script's record has no error (R55, R104). -/
theorem exists_buildScript {record : List Exchange} {l : ScriptLine} (hn : firstError 1 record = none)
    (hl : l.wellFormed (record.length + 1) = true)
    (hv : ∀ j, (Field.v, Operand.ref j) ∉ l.mnemonic.operands.zip l.operands) :
    ∃ i, buildScript record l = .ok i := by
  obtain ⟨hlen, hfits, hearlier⟩ := wellFormed_iff.mp hl
  refine ⟨_, (buildScript_of_wellFormed hn hl).trans (assembleValues_of_fits (by simp [hlen]) fun p hp => ?_)⟩
  rw [List.zip_map_right] at hp
  obtain ⟨⟨f, o⟩, hfo, rfl⟩ := List.mem_map.mp hp
  have hvalue := exists_operandValue hn (hearlier o (List.of_mem_zip hfo).2)
  exact lt_of_operandValue (hfits _ hfo) (fun j hj => hv j (hj ▸ hfo)) (operandValue_eq_valueOf hvalue)

/-- A line that can be built, of a script without a recorded error, has the word of its command (R55). -/
theorem lineCommand_of_buildScript {log : List Exchange} {k : Nat} {l : ScriptLine} {i : Instr}
    (hn : firstError 1 (scriptLog k log) = none) (hb : buildScript (scriptLog k log) l = .ok i) :
    lineCommand log (.script k l) = .next (encode i) := by
  simp only [lineCommand, hn, hb]

/-- A line is refused only as a line of a script without a recorded error that cannot be built (R53, R55). -/
theorem lineCommand_refused {log : List Exchange} {l : Line} {e : AsmError}
    (h : lineCommand log l = .refused (.lineRejected e)) :
    ∃ k c, l = .script k c ∧ firstError 1 (scriptLog k log) = none ∧ buildScript (scriptLog k log) c = .error e := by
  cases l with
  | word w => cases h
  | script k c =>
    cases hn : firstError 1 (scriptLog k log) with
    | some p => rw [lineCommand_stopped hn] at h; cases h
    | none =>
      cases hb : buildScript (scriptLog k log) c with
      | ok i => rw [lineCommand_of_buildScript hn hb] at h; cases h
      | error e' =>
        simp only [lineCommand, hn, hb] at h
        cases h
        exact ⟨k, c, rfl, hn, hb⟩

/-- Where the next line of a script has a command the step goes on, wherever that line stands, and it sends that line where
it comes first (R24; log 6). -/
theorem step_of_lineCommand {s : State} {l : Line} {before after : List Line} {w : CommandWord}
    (hp : s.pending = before ++ l :: after) (hbefore : ∀ z ∈ before, z.script? ≠ l.script?)
    (hc : lineCommand s.log l = .next w) : ∃ t, step s = .next t ∧ (before = [] → t.pending = after) := by
  obtain ⟨f, hf⟩ : ∃ f, fetch s = .next f := by
    rw [fetch, hp]
    exact fetchFrom_sends hc (heldBy_nil l) fun z hz hsame => absurd hsame (hbefore z hz)
  obtain ⟨r, -, hs⟩ := step_of_fetch hf
  refine ⟨_, hs, ?_⟩
  rintro rfl
  cases hf.symm.trans (fetch_of_lineCommand hp hc)
  rfl

/-- The line that a step rejects is the first of those left, and it has no command (R53; log 6). -/
theorem lineCommand_of_step_rejected {s : State} {e : AsmError} (h : step s = .refused (.lineRejected e)) :
    ∃ l ls, s.pending = l :: ls ∧ lineCommand s.log l = .refused (.lineRejected e) := by
  cases hp : s.pending with
  | nil =>
    have hf : fetch s = .refused .noCommandPresented := by rw [fetch, hp, fetchFrom]
    cases (step_of_fetch_refused hf).symm.trans h
  | cons l ls =>
    refine ⟨l, ls, rfl, ?_⟩
    rcases fetch_of_cons hp with ⟨f, hf⟩ | ⟨p, -, hf⟩ | ⟨r, hc, hf⟩
    · obtain ⟨q, -, hs⟩ := step_of_fetch hf
      cases hs.symm.trans h
    · cases (step_of_fetch_fault hf).symm.trans h
    · cases (step_of_fetch_refused hf).symm.trans h
      exact hc

/-- Settles O50: the next line of each script is well formed (`State.ScriptSound.wellFormed_next`), so its references name
results (`exists_result_of_earlier`), it can be built (`exists_buildScript`) and a step goes on
(`step_of_lineCommand`); what a step rejects is such a line, with all its values (`buildScript_of_wellFormed`). -/
theorem wellFormedScriptLineIsAnswered : Obligations.WellFormedScriptLineIsAnswered := by
  refine ⟨fun s k l before after hsound hn hp hbefore => ?_, fun s e hsound hs => ?_⟩
  · have hl := hsound.wellFormed_next hp hbefore
    obtain ⟨-, -, hearlier⟩ := wellFormed_iff.mp hl
    refine ⟨fun m hm => exists_result_of_earlier hn (hearlier _ hm), fun hv => ?_⟩
    obtain ⟨i, hb⟩ := exists_buildScript hn hl hv
    have hc := lineCommand_of_buildScript hn hb
    exact ⟨⟨_, hc⟩, step_of_lineCommand hp hbefore hc⟩
  · obtain ⟨z, ls, hp, hc⟩ := lineCommand_of_step_rejected hs
    obtain ⟨k, l, rfl, hn, hb⟩ := lineCommand_refused hc
    have hl := hsound.wellFormed_next (before := []) hp (by simp)
    obtain ⟨hlen, -, -⟩ := wellFormed_iff.mp hl
    rw [buildScript_of_wellFormed hn hl] at hb
    exact operandTooLarge_of_assembleValues (by simp [hlen]) hb

end Sys2Proof.Machine

/-! PROOFS. The family 70_reset_and_hazards.md: the first command (R106) and the outcome of a run (R112). -/

namespace Sys2Proof.Machine

/-! ### The record and the ports -/

/-- A record of answers that grows by a word with its answer is one again, and the ports that hold this exchange hold the
last one (R112). -/
theorem State.LogSound.append_answer {s : State} (h : s.LogSound) {w : CommandWord} {r : Response} (ha : answer w = some r)
    (pending : List Line) (script : Option Nat) :
    State.LogSound { cmd := some w, rsp := some r, pending, log := s.log ++ [⟨w, r, script⟩] } := by
  obtain ⟨hanswers, -⟩ := h
  constructor
  · intro x hx
    rcases List.mem_append.mp hx with hold | hnew
    · exact hanswers x hold
    · obtain rfl := List.mem_singleton.mp hnew
      exact ha
  · intro x hlast
    obtain rfl := Option.some.inj (List.getLast?_concat.symm.trans hlast)
    exact ⟨rfl, rfl⟩

/-- Settles O53: a step records the presented word with its answer (`step_next`), which keeps the record sound. -/
theorem stepKeepsTheRecordSound : Obligations.StepKeepsTheRecordSound := by
  intro s t hsound hstep
  obtain ⟨f, r, -, ha, rfl⟩ := step_next hstep
  exact hsound.append_answer ha f.rest f.script

/-! ### The outcome of a run -/

/-- Words zipped with their answers are the exchanges of these words. -/
theorem zipWith_answers_eq_literalExchange (ws : List CommandWord) :
    List.zipWith (fun w r => ⟨w, r, none⟩) ws (ws.map fun w => (literalExchange w).rsp) = ws.map literalExchange := by
  rw [List.zipWith_map_right, List.zipWith_self]
  rfl

/-- The exchange of a literal word has `err` = 0 exactly when the word's answer is a result. -/
theorem isOk_literalExchange_iff (w : CommandWord) :
    (literalExchange w).rsp.isOk = true ↔ ∃ y t, answer w = some (.ok y t) := by
  simp [isOk_iff, ← some_literalExchange_rsp]

/-- A run whose record holds the exchanges of literal words is good exactly when each word's answer is a result (R112). -/
theorem goodRun_iff_of_log_eq {t : State} {ws : List CommandWord} (h : t.log = ws.map literalExchange) :
    goodRun t = true ↔ ∀ w ∈ ws, ∃ y x, answer w = some (.ok y x) := by
  simp [goodRun, h, isOk_literalExchange_iff]

/-- Settles O51: `run_words` gives the record of the run, and `goodRun_iff_of_log_eq` reads off whether it is good. -/
theorem runAnswersEveryCommandInOrder : Obligations.RunAnswersEveryCommandInOrder := by
  intro ws s hpending
  obtain ⟨t, hrun, hdone, hlog⟩ := run_words ws hpending
  refine ⟨t, ws.map fun w => (literalExchange w).rsp, hrun, hdone, by simp, ?_, fun hempty => ?_⟩
  · rw [zipWith_answers_eq_literalExchange, hlog]
  · exact goodRun_iff_of_log_eq (by simpa [hempty] using hlog)

/-! ### The first command -/

/-- A step whose next line is a literal word leaves the block's answer to it on RSP, whatever else the state holds (R10). -/
theorem step_word_rsp {s : State} {w : CommandWord} {ls : List Line} {r : Response} (h : s.pending = .word w :: ls)
    (ha : answer w = some r) : ∃ t, step s = .next t ∧ t.rsp = some r := by
  obtain ⟨q, hq, hs⟩ := step_of_fetch (fetch_word h)
  exact ⟨_, hs, hq.symm.trans ha⟩

/-- Settles O56: the word comes first in both states, so `step_word_rsp` says the same of both. -/
theorem firstCommandIsAnsweredLikeAnyOther : Obligations.FirstCommandIsAnsweredLikeAnyOther := by
  intro w s ls hpending
  obtain ⟨r, ha, -⟩ := blockStep_answer w
  obtain ⟨t, ht, htr⟩ := step_word_rsp (s := State.reset.load [.word w]) rfl ha
  obtain ⟨u, hu, hur⟩ := step_word_rsp hpending ha
  exact ⟨t, u, r, ha, ht, hu, htr, hur⟩

end Sys2Proof.Machine
